-- ==== Sys2Proof/Word.lean ====
section
/-! DEFINITION. The word types of the block: 00_scope.md R7, R10. -/

namespace Sys2Proof

/-- `u8` (R10): a byte of a row, of the packer's buffer, of a CRC input. -/
abbrev Byte := BitVec 8

/-- `u32` (R10): the CRC accumulator, a table entry, the response data (R7). -/
abbrev Word := BitVec 32

/-- The 64-bit command word `CMD` (R7, R43). -/
abbrev Cmd := BitVec 64

end Sys2Proof
end

