-- ==== Sys2Proof/Syntax.lean ====
section
/-! DEFINITION. The commands of the block (30_encoding.md R45 to R49), one constructor of `Instr` per row of
spec/opcode_table.json, and the abstract syntax of the assembler (R54, R55). -/

namespace Sys2Proof

/-- The ten command formats of R46. -/
inductive Format where
  | Z | B | W | P | C | R | K | S | I | X
deriving DecidableEq, Repr

/-- The seventeen operations of the opcode map (R49), by mnemonic. -/
inductive Op where
  | nop | stRd
  | crcInit | crcByte | crcFinal | crcTbl
  | pkInit | pkPut | pkRdb
  | flCfg | flWr | flFwd | flSel | flInv | flRdo | flRdt | flShift
deriving DecidableEq, Repr

/-- Operand `sel` of FL_WR (R48): 0 = CUR, 1 = PREV. -/
inductive RowSel where
  | cur | prev
deriving DecidableEq, Repr

/-- Operand `src` of FL_SHIFT (R48): 0 = CUR, 1 = OUT. -/
inductive ShiftSrc where
  | cur | out
deriving DecidableEq, Repr

/-- A decoded command. Each field has exactly the width R46 gives it, so every value of this type has an
encoding. Whether a value is legal is the command's own rule (R47): `kind` 5 to 7, `n` 0 or above 16, any
`depth` all decode. -/
inductive Instr where
  | nop
  | stRd
  | crcInit
  | crcByte (b : BitVec 8)
  | crcFinal
  | crcTbl (b : BitVec 8)
  | pkInit (cap : BitVec 32)
  | pkPut (off : BitVec 32) (val : BitVec 16) (n : BitVec 5)
  | pkRdb (idx : BitVec 32)
  | flCfg (len : BitVec 16) (bpp : BitVec 4) (pv : Bool)
  | flWr (sel : RowSel) (idx : BitVec 16) (byte : BitVec 8)
  | flFwd (kind : BitVec 3)
  | flSel (gray : Bool) (depth : BitVec 5)
  | flInv (kind : BitVec 3)
  | flRdo (idx : BitVec 16)
  | flRdt
  | flShift (src : ShiftSrc)
deriving DecidableEq, Repr

/-- Which operation a command is. -/
def Instr.op : Instr → Op
  | .nop => .nop
  | .stRd => .stRd
  | .crcInit => .crcInit
  | .crcByte _ => .crcByte
  | .crcFinal => .crcFinal
  | .crcTbl _ => .crcTbl
  | .pkInit _ => .pkInit
  | .pkPut _ _ _ => .pkPut
  | .pkRdb _ => .pkRdb
  | .flCfg _ _ _ => .flCfg
  | .flWr _ _ _ => .flWr
  | .flFwd _ => .flFwd
  | .flSel _ _ => .flSel
  | .flInv _ => .flInv
  | .flRdo _ => .flRdo
  | .flRdt => .flRdt
  | .flShift _ => .flShift

/-- Why the decoder rejects a word (R50, R51). -/
inductive DecodeError where
  /-- R50: the opcode is unassigned. -/
  | illegal
  /-- R51: the opcode is assigned and a reserved bit is set. -/
  | reserved
deriving DecidableEq, Repr

/-- The symbols the assembler accepts in place of numbers (R54). -/
inductive Symbol where
  | CUR | PREV | OUT
  | NONE | SUB | UP | AVG | PAETH
  | NOPREV | HASPREV
deriving DecidableEq, Repr

/-- An operand of an assembler line: a number or a symbol (R54). -/
inductive AsmOperand where
  | num (n : Nat)
  | sym (s : Symbol)
deriving DecidableEq, Repr

/-- One command line of the assembler: a mnemonic and its operands, in the order written (R54). -/
structure AsmLine where
  op : Op
  operands : List AsmOperand
deriving DecidableEq, Repr

/-- The pseudo-instructions of R55. -/
inductive Pseudo where
  /-- `CRC32 b0, b1, ...` -/
  | crc32 (bytes : List Nat)
  /-- `FL_LOAD sel, i, b0, ...` -/
  | flLoad (sel : AsmOperand) (i : Nat) (bytes : List Nat)
  /-- `FL_READ k` -/
  | flRead (k : Nat)
  /-- `PK_SAMPLES off, n, v0, ...` -/
  | pkSamples (off n : Nat) (vals : List Nat)
  /-- `PK_ROW r, rowBytes, n, v0, ...` -/
  | pkRow (r rowBytes n : Nat) (vals : List Nat)
deriving DecidableEq, Repr

end Sys2Proof
end

