-- ==== Sys2Proof/WellFormed.lean ====
section
/-! DEFINITION. When an assembler line has an encoding (30_encoding.md R54): "An operand that does not fit its
field is an assembly error, not an encoding: the assembler refuses it." A value of `Instr` needs no check of its
own: its fields have exactly the widths of R46. -/

namespace Sys2Proof

/-- The operand fields of R47, with format R's and format I's `idx` told apart by nothing but their place. -/
inductive Field where
  | b | w | off | val | n | len | bpp | pv | sel | idx | byte | kind | gray | depth | src
deriving DecidableEq, Repr

/-- Field widths in bits (R46). -/
def Field.width : Field → Nat
  | .b => 8 | .w => 32 | .off => 32 | .val => 16 | .n => 5 | .len => 16 | .bpp => 4 | .pv => 1
  | .sel => 1 | .idx => 16 | .byte => 8 | .kind => 3 | .gray => 1 | .depth => 5 | .src => 1

/-- The operands of each command, "in the order of the format's fields from high bits to low" (R54). -/
def Op.fields : Op → List Field
  | .nop | .stRd | .crcInit | .crcFinal | .flRdt => []
  | .crcByte | .crcTbl => [.b]
  | .pkInit | .pkRdb => [.w]
  | .pkPut => [.off, .val, .n]
  | .flCfg => [.len, .bpp, .pv]
  | .flWr => [.sel, .idx, .byte]
  | .flFwd | .flInv => [.kind]
  | .flSel => [.gray, .depth]
  | .flRdo => [.idx]
  | .flShift => [.src]

/-- What a symbol stands for in a field (R54, R48); none where the field does not accept it. -/
def Field.symbol : Field → Symbol → Option Nat
  | .sel, .CUR => some 0
  | .sel, .PREV => some 1
  | .src, .CUR => some 0
  | .src, .OUT => some 1
  | .kind, .NONE => some 0
  | .kind, .SUB => some 1
  | .kind, .UP => some 2
  | .kind, .AVG => some 3
  | .kind, .PAETH => some 4
  | .pv, .NOPREV => some 0
  | .pv, .HASPREV => some 1
  | _, _ => none

/-- The number an operand puts into a field; none where it does not fit or the symbol is not the field's. -/
def AsmOperand.value (f : Field) : AsmOperand → Option Nat
  | .num n => if n < 2 ^ f.width then some n else none
  | .sym s => f.symbol s

/-- Each operand fits its field, and there are as many operands as fields. -/
def operandsFit : List Field → List AsmOperand → Bool
  | [], [] => true
  | f :: fs, o :: os => (o.value f).isSome && operandsFit fs os
  | _, _ => false

/-- R54: the line has an encoding. -/
def AsmLine.wellFormed (l : AsmLine) : Bool := operandsFit l.op.fields l.operands

end Sys2Proof
end

