-- ==== Sys2Proof/Decode.lean ====
section
/-! DEFINITION. The decoder of 30_encoding.md R52, total on every 64-bit word and rejecting by name, and the
encoder written from the same tables (R46, R49). -/

namespace Sys2Proof

/-- The opcode map of R49: `CMD[63:56]`. -/
def Op.opc : Op → BitVec 8
  | .nop => 0x00
  | .stRd => 0x01
  | .crcInit => 0x10
  | .crcByte => 0x11
  | .crcFinal => 0x12
  | .crcTbl => 0x13
  | .pkInit => 0x20
  | .pkPut => 0x21
  | .pkRdb => 0x22
  | .flCfg => 0x30
  | .flWr => 0x31
  | .flFwd => 0x32
  | .flSel => 0x33
  | .flInv => 0x34
  | .flRdo => 0x35
  | .flRdt => 0x36
  | .flShift => 0x37

/-- The format column of R49. -/
def Op.format : Op → Format
  | .nop | .stRd | .crcInit | .crcFinal | .flRdt => .Z
  | .crcByte | .crcTbl => .B
  | .pkInit | .pkRdb => .W
  | .pkPut => .P
  | .flCfg => .C
  | .flWr => .R
  | .flFwd | .flInv => .K
  | .flSel => .S
  | .flRdo => .I
  | .flShift => .X

/-- The rows of the opcode map, in the order of R49. -/
def opcodeMap : List Op :=
  [.nop, .stRd, .crcInit, .crcByte, .crcFinal, .crcTbl, .pkInit, .pkPut, .pkRdb,
   .flCfg, .flWr, .flFwd, .flSel, .flInv, .flRdo, .flRdt, .flShift]

/-- The operation an opcode is assigned to; none for an unassigned opcode (R50). -/
def opOf (opc : BitVec 8) : Option Op := opcodeMap.find? fun o => o.opc == opc

/-- `FIELDMASK` of R52: the operand bits of a format. -/
def fieldMask : Format → Cmd
  | .Z => 0x0000000000000000
  | .B => 0x00000000000000FF
  | .W => 0x00000000FFFFFFFF
  | .P => 0x00FFFFFFFFFFFF1F
  | .C => 0x0000000000FFFFF1
  | .R => 0x0000000001FFFFFF
  | .K => 0x0000000000000007
  | .S => 0x000000000000003F
  | .I => 0x000000000000FFFF
  | .X => 0x0000000000000001

/-- The reserved bits of a format (R45): the bits of `CMD[55:0]` outside its fields. -/
def reservedMask (f : Format) : Cmd := 0x00FFFFFFFFFFFFFF &&& ~~~(fieldMask f)

/-- `CMD[lo+width-1 : lo]`, read as an unsigned number (R8, R47). -/
def cmdField (w : Cmd) (lo width : Nat) : BitVec width := w.extractLsb' lo width

/-- `CMD[i]` (R8). -/
def cmdBit (w : Cmd) (i : Nat) : Bool := w.getLsbD i

/-- R48: `sel` 0 = CUR, 1 = PREV. -/
def RowSel.ofBit (b : Bool) : RowSel := if b then .prev else .cur

/-- R48: `src` 0 = CUR, 1 = OUT. -/
def ShiftSrc.ofBit (b : Bool) : ShiftSrc := if b then .out else .cur

/-- Operand assembly (R47): every field straight from its bits. -/
def readOperands (o : Op) (w : Cmd) : Instr :=
  match o with
  | .nop => .nop
  | .stRd => .stRd
  | .crcInit => .crcInit
  | .crcByte => .crcByte (cmdField w 0 8)
  | .crcFinal => .crcFinal
  | .crcTbl => .crcTbl (cmdField w 0 8)
  | .pkInit => .pkInit (cmdField w 0 32)
  | .pkPut => .pkPut (cmdField w 24 32) (cmdField w 8 16) (cmdField w 0 5)
  | .pkRdb => .pkRdb (cmdField w 0 32)
  | .flCfg => .flCfg (cmdField w 8 16) (cmdField w 4 4) (cmdBit w 0)
  | .flWr => .flWr (RowSel.ofBit (cmdBit w 24)) (cmdField w 8 16) (cmdField w 0 8)
  | .flFwd => .flFwd (cmdField w 0 3)
  | .flSel => .flSel (cmdBit w 5) (cmdField w 0 5)
  | .flInv => .flInv (cmdField w 0 3)
  | .flRdo => .flRdo (cmdField w 0 16)
  | .flRdt => .flRdt
  | .flShift => .flShift (ShiftSrc.ofBit (cmdBit w 0))

/-- The decoder of R52, less the fault gate, which comes first (60_exceptions.md R97). -/
def decode (w : Cmd) : Except DecodeError Instr :=
  match opOf (cmdField w 56 8) with
  | none => .error .illegal
  | some o => if w &&& reservedMask o.format = 0 then .ok (readOperands o w) else .error .reserved

/-- R48, the other way: the bit of `sel`. -/
def RowSel.bit : RowSel → BitVec 1
  | .cur => 0
  | .prev => 1

/-- R48, the other way: the bit of `src`. -/
def ShiftSrc.bit : ShiftSrc → BitVec 1
  | .cur => 0
  | .out => 1

/-- The encoder: the layouts of R46, high bits to low, with `0` for the reserved bits. -/
def encode : Instr → Cmd
  | .nop => Op.nop.opc ++ 0#56
  | .stRd => Op.stRd.opc ++ 0#56
  | .crcInit => Op.crcInit.opc ++ 0#56
  | .crcByte b => Op.crcByte.opc ++ 0#48 ++ b
  | .crcFinal => Op.crcFinal.opc ++ 0#56
  | .crcTbl b => Op.crcTbl.opc ++ 0#48 ++ b
  | .pkInit cap => Op.pkInit.opc ++ 0#24 ++ cap
  | .pkPut off val n => Op.pkPut.opc ++ off ++ val ++ 0#3 ++ n
  | .pkRdb idx => Op.pkRdb.opc ++ 0#24 ++ idx
  | .flCfg len bpp pv => Op.flCfg.opc ++ 0#32 ++ len ++ bpp ++ 0#3 ++ BitVec.ofBool pv
  | .flWr sel idx byte => Op.flWr.opc ++ 0#31 ++ sel.bit ++ idx ++ byte
  | .flFwd kind => Op.flFwd.opc ++ 0#53 ++ kind
  | .flSel gray depth => Op.flSel.opc ++ 0#50 ++ BitVec.ofBool gray ++ depth
  | .flInv kind => Op.flInv.opc ++ 0#53 ++ kind
  | .flRdo idx => Op.flRdo.opc ++ 0#40 ++ idx
  | .flRdt => Op.flRdt.opc ++ 0#56
  | .flShift src => Op.flShift.opc ++ 0#55 ++ src.bit

/-- spec/opcode_table.json: (operation, `match`, `mask`). "A word `w` is that command exactly when
`(w and mask) = match`" (R52). The decoder does not use it: a claim says that the two agree. -/
def opcodeTable : List (Op × Cmd × Cmd) :=
  [(.nop, 0x0000000000000000, 0xFFFFFFFFFFFFFFFF),
   (.stRd, 0x0100000000000000, 0xFFFFFFFFFFFFFFFF),
   (.crcInit, 0x1000000000000000, 0xFFFFFFFFFFFFFFFF),
   (.crcByte, 0x1100000000000000, 0xFFFFFFFFFFFFFF00),
   (.crcFinal, 0x1200000000000000, 0xFFFFFFFFFFFFFFFF),
   (.crcTbl, 0x1300000000000000, 0xFFFFFFFFFFFFFF00),
   (.pkInit, 0x2000000000000000, 0xFFFFFFFF00000000),
   (.pkPut, 0x2100000000000000, 0xFF000000000000E0),
   (.pkRdb, 0x2200000000000000, 0xFFFFFFFF00000000),
   (.flCfg, 0x3000000000000000, 0xFFFFFFFFFF00000E),
   (.flWr, 0x3100000000000000, 0xFFFFFFFFFE000000),
   (.flFwd, 0x3200000000000000, 0xFFFFFFFFFFFFFFF8),
   (.flSel, 0x3300000000000000, 0xFFFFFFFFFFFFFFC0),
   (.flInv, 0x3400000000000000, 0xFFFFFFFFFFFFFFF8),
   (.flRdo, 0x3500000000000000, 0xFFFFFFFFFFFF0000),
   (.flRdt, 0x3600000000000000, 0xFFFFFFFFFFFFFFFF),
   (.flShift, 0x3700000000000000, 0xFFFFFFFFFFFFFFFE)]

/-- The command word a table word stands for: its bits above `nbits` are 0. -/
def tableWord (nbits w : Nat) : Cmd := BitVec.ofNat 64 (w % 2 ^ nbits)

/-- The instruction the decoder reads from a table word. -/
def decodeTableWord (nbits w : Nat) : Option Instr :=
  match decode (tableWord nbits w) with
  | .ok i => some i
  | .error _ => none

end Sys2Proof
end

