-- ==== Sys2Proof/Config.lean ====
section
/-! DEFINITION. What an implementation fixes: the two open parameters of the spec (00_scope.md R5, R6).
The spec leaves no value free beside them, so there is no free-value constant. -/

namespace Sys2Proof

/-- The parameters "the model takes as an argument". `Machine.State` carries them, since a step takes
nothing but a state; no command and no reset changes them (log 2, DESIGN CHOICE). -/
structure Config where
  /-- `ROW_MAX` (R5): the number of cells of each row buffer. -/
  rowMax : Nat
  /-- `PK_MAX_BYTES` (R6): the number of bytes of the packer's buffer. -/
  pkMaxBytes : Nat
deriving DecidableEq, Repr

/-- The legal ranges: `1 <= ROW_MAX <= 65535` (R5) and `1 <= PK_MAX_BYTES <= 2^29` (R6). -/
def Config.legal (c : Config) : Bool :=
  decide (1 ≤ c.rowMax ∧ c.rowMax ≤ 65535) && decide (1 ≤ c.pkMaxBytes ∧ c.pkMaxBytes ≤ 2 ^ 29)

end Sys2Proof
end

