-- ==== Sys2Proof/Machine/Params.lean ====
section
/-! DEFINITION. The parameters `State.reset` names (00_scope.md R5, R6). -/

namespace Sys2Proof.Machine

/-- DESIGN CHOICE (log 2, unsafe): the spec leaves both parameters open; these are the values every vector of
95_test_vectors.md assumes. A statement about every state holds for every legal value and not for these alone. -/
def resetConfig : Config := { rowMax := 16, pkMaxBytes := 16 }

end Sys2Proof.Machine
end

