-- ==== Sys2Proof/Machine/State.lean ====
section
/-! DEFINITION. The architectural state of the block (10_state.md), as plain data, and its value after reset
(10_state.md R25). -/

namespace Sys2Proof.Machine

/-- `RSP_STATUS` and `STATUS.CODE` by name (60_exceptions.md R95); the numbers are `Status.code`'s. Codes 11 to
15 are "never produced" and have no name. -/
inductive Status where
  | ok | illegal | reserved | notInit | operand | filterType | bitDepth | range | capacity | unwritten | faulted
deriving DecidableEq, Repr

/-- The filter kinds 0 to 4 (R18, R48). TAG holds one of these and nothing else. -/
inductive FilterKind where
  | none | sub | up | average | paeth
deriving DecidableEq, Repr

/-- A response (R43): the 4-bit status, by name, and the 32-bit data. -/
structure Response where
  status : Status
  data : Word
deriving DecidableEq, Repr

/-- What the host does to the block (R43): it presents a command word, or asserts reset. `pending` is a
command that was presented and had not completed when reset was asserted (70_reset_and_hazards.md R107). -/
inductive HostInput where
  | command (w : Cmd)
  | reset (pending : Option Cmd)
deriving DecidableEq, Repr

/-- A buffer of the block: (index, byte) pairs, indices strictly rising (log 12). What an unlisted index reads
as is the buffer's own (`rowUnlisted`, `pkUnlisted` in Machine/Ops.lean). -/
abbrev Memory := List Host.Cell

/-- The state elements of 10_state.md section 1, and the three fields of the model's own: `cfg` (log 2), `port`
(log 1) and `rsp` (log 5). `Option` is the spec's own written bit (R10, R24). -/
structure State where
  /-- The parameters ROW_MAX and PK_MAX_BYTES (R5, R6). The model's own field. -/
  cfg : Config
  /-- STATUS.FAULT (R15). -/
  fault : Bool
  /-- STATUS.CODE (R15). -/
  code : Status
  /-- CRC_ACC (R19). -/
  crcAcc : Option (BitVec 32)
  /-- PK_CAP (R21). -/
  pkCap : Option (BitVec 32)
  /-- PK_BUF (R22). -/
  pkBuf : Memory
  /-- FL_LEN (R17). -/
  flLen : Option (BitVec 16)
  /-- FL_BPP (R17). -/
  flBpp : BitVec 4
  /-- FL_PV (R17). -/
  flPv : Bool
  /-- CUR (R23). -/
  cur : Memory
  /-- PREV (R23). -/
  prev : Memory
  /-- OUT (R23). -/
  out : Memory
  /-- TAG (R18). -/
  tag : Option FilterKind
  /-- The host's inputs the block has not taken yet, oldest first (R14, R43). The model's own field. -/
  port : List HostInput
  /-- The response last returned (R43); none before the first one. The model's own field. -/
  rsp : Option Response
deriving DecidableEq, Repr

/-- Why the machine stops. There is no reason: "Every command word, in every state, has a defined response and
a defined next state" (93_implementation_defined.md section 2). An error of the block is a next state, by
`raise` (60_exceptions.md R98, log 7). -/
inductive Fault where
deriving DecidableEq, Repr

/-- Why an instruction has no meaning in the model. -/
inductive Refusal where
  /-- Raised by an arm of `exec` whose instruction has no meaning yet; no arm is left that raises it. Safe: the
  run stops. -/
  | notModelled (mnemonic : String)
deriving DecidableEq, Repr

/-- What one step or one command answers. -/
abbrev Result := Host.Outcome State Fault Refusal

/-- The state after reset (R25). The spec gives no value for FL_BPP and PK_BUF ("unspecified"): 0 (log 3, log
4, DESIGN CHOICE, unsafe). The host has presented nothing and no response has been returned (log 1, log 5). -/
def State.reset : State where
  cfg := resetConfig
  fault := false
  code := .ok
  crcAcc := none
  pkCap := none
  pkBuf := []
  flLen := none
  flBpp := 0
  flPv := false
  cur := []
  prev := []
  out := []
  tag := none
  port := []
  rsp := none

namespace State

/-! ### Updates: one per state element, so that Laws/State.lean says once what each leaves alone. -/

/-- `STATUS.FAULT <- f`, `STATUS.CODE <- c`. -/
def withStatus (s : State) (f : Bool) (c : Status) : State := { s with fault := f, code := c }

/-- `CRC_ACC <- v`. -/
def withCrcAcc (s : State) (v : BitVec 32) : State := { s with crcAcc := some v }

/-- `PK_CAP <- v`. -/
def withPkCap (s : State) (v : BitVec 32) : State := { s with pkCap := some v }

/-- A new content of PK_BUF. -/
def withPkBuf (s : State) (m : Memory) : State := { s with pkBuf := m }

/-- `FL_LEN <- len; FL_BPP <- bpp; FL_PV <- pv`. -/
def withFlCfg (s : State) (len : BitVec 16) (bpp : BitVec 4) (pv : Bool) : State :=
  { s with flLen := some len, flBpp := bpp, flPv := pv }

/-- `FL_PV <- pv`. -/
def withFlPv (s : State) (pv : Bool) : State := { s with flPv := pv }

/-- A new content of CUR. -/
def withCur (s : State) (m : Memory) : State := { s with cur := m }

/-- A new content of PREV. -/
def withPrev (s : State) (m : Memory) : State := { s with prev := m }

/-- A new content of OUT, and TAG (every command that writes one writes the other). -/
def withOut (s : State) (m : Memory) (t : Option FilterKind) : State := { s with out := m, tag := t }

/-- The inputs still to be taken. -/
def withPort (s : State) (p : List HostInput) : State := { s with port := p }

/-- A response returned. -/
def withRsp (s : State) (st : Status) (d : Word) : State := { s with rsp := some { status := st, data := d } }

end State

end Sys2Proof.Machine
end

