-- ==== Sys2Proof/Machine/Ops.lean ====
section
/-! DEFINITION. The named operations: the buffers, ending a command by `respond` or `raise` (00_scope.md R11,
60_exceptions.md R98), and reset (70_reset_and_hazards.md R107). -/

namespace Sys2Proof.Machine

/-- `ceil8(n)` (R10): the number of bytes that hold `n` bits. -/
def ceil8 (n : Nat) : Nat := (n + 7) / 8

/-! ### Buffers -/

/-- What an unlisted cell of CUR, PREV or OUT reads as: `unwritten` (R10, R25). -/
def rowUnlisted : Option Byte := none

/-- What an unlisted byte of PK_BUF reads as: 0. The spec leaves PK_BUF unspecified after reset (R25): DESIGN
CHOICE, unsafe (log 4). After PK_INIT it is the value R66 gives the accessible bytes. -/
def pkUnlisted : Option Byte := some 0

/-- The listed content of index `a`. -/
def Memory.find : Memory → Nat → Option Byte
  | [], _ => none
  | c :: m, a => if c.1 = a then some c.2 else Memory.find m a

/-- `buf[a]`, with `u` what an unlisted index reads as. -/
def Memory.read (u : Option Byte) (m : Memory) (a : Nat) : Option Byte := (m.find a).or u

/-- List `v` at index `a`, in order, in place of an earlier entry. -/
def Memory.insert : Memory → Nat → Byte → Memory
  | [], a, v => [(a, v)]
  | c :: m, a, v =>
    if a < c.1 then (a, v) :: c :: m
    else if a = c.1 then (a, v) :: m
    else c :: Memory.insert m a v

/-- Make index `a` unlisted. -/
def Memory.erase (m : Memory) (a : Nat) : Memory := m.filter fun c => c.1 ≠ a

/-- `buf[a] <- v`, keeping the canonical form: what an unlisted index reads as is not listed. -/
def Memory.write (u : Option Byte) (m : Memory) (a : Nat) (v : Byte) : Memory :=
  if u = some v then m.erase a else m.insert a v

/-- `for j in 0 .. n-1: buf[j] <- (what an unlisted index reads as)`. -/
def Memory.clearBelow (m : Memory) (n : Nat) : Memory := m.filter fun c => n ≤ c.1

/-- `for j: buf[a + j] <- bs[j]`. -/
def Memory.writeFrom (u : Option Byte) : Memory → Nat → List Byte → Memory
  | m, _, [] => m
  | m, a, b :: bs => Memory.writeFrom u (m.write u a b) (a + 1) bs

/-- `buf[a .. a+n-1]`; none if any of them is unwritten. -/
def Memory.readFrom (u : Option Byte) (m : Memory) : Nat → Nat → Option (List Byte)
  | _, 0 => some []
  | a, n + 1 =>
    match m.read u a, Memory.readFrom u m (a + 1) n with
    | some b, some bs => some (b :: bs)
    | _, _ => none

/-- The indices are strictly rising. -/
def Memory.rising : Memory → Bool
  | [] => true
  | c :: m => (m.all fun d => c.1 < d.1) && Memory.rising m

/-- The canonical form: indices strictly rising, and no entry equal to what an unlisted index reads as. -/
def Memory.wf (u : Option Byte) (m : Memory) : Bool := m.rising && m.all fun c => u ≠ some c.2

/-- Every listed index is below `n`. -/
def Memory.below (n : Nat) (m : Memory) : Bool := m.all fun c => c.1 < n

/-- `buf[i]` of a packer buffer. Every byte reads as some value: `pkUnlisted` is one. -/
def pkRead (m : Memory) (i : Nat) : Byte := (m.read pkUnlisted i).getD 0

/-- Bit offset `k` of a packer buffer: bit `7 - (k mod 8)` of byte `floor(k / 8)` (20_memory.md R27). -/
def pkReadBit (m : Memory) (k : Nat) : Bool := (pkRead m (k / 8)).getLsbD (7 - k % 8)

namespace State

/-- `S.CUR[i]`: none is `unwritten`. -/
def curCell (s : State) (i : Nat) : Option Byte := s.cur.read rowUnlisted i

/-- `S.PREV[i]`. -/
def prevCell (s : State) (i : Nat) : Option Byte := s.prev.read rowUnlisted i

/-- `S.OUT[i]`. -/
def outCell (s : State) (i : Nat) : Option Byte := s.out.read rowUnlisted i

/-- `S.PK_BUF[i]`. -/
def pkByte (s : State) (i : Nat) : Byte := pkRead s.pkBuf i

/-- The bit of PK_BUF at bit offset `k` (20_memory.md R27). -/
def pkBit (s : State) (k : Nat) : Bool := pkReadBit s.pkBuf k

end State

/-! ### Ending a command -/

/-- The state after `respond(d)` (R11): status OK and the data `d`. -/
def State.responded (s : State) (d : Word) : State := s.withRsp .ok d

/-- Fault entry, the state after `raise E_x` (60_exceptions.md R98): FAULT and CODE are set, the response
carries the code and data 0 (R44), and no other element changes. -/
def State.raised (s : State) (e : Status) : State := (s.withStatus true e).withRsp e 0

/-- `respond(d)` (R11). -/
def respond (d : Word) (s : State) : Result := .next (s.responded d)

/-- `raise E_x` (R98). The block's whole trap mechanism (R101): a next state, not a stop (log 7). -/
def raise (e : Status) (s : State) : Result := .next (s.raised e)

/-! ### Leaving the fault state -/

/-- Reset (R107): every state element to its R25 value, whatever the state was; no response. The parameters are
the hardware's and stay, and so do the host's later inputs (log 8). It is the one way out of the fault state
(R102). -/
def State.afterReset (s : State) : State := { State.reset with cfg := s.cfg, port := s.port }

end Sys2Proof.Machine
end

