-- ==== Sys2Proof/Machine/Flags.lean ====
section
/-! DEFINITION. The error codes' numbers and the status word: 60_exceptions.md R95, 10_state.md R16. -/

namespace Sys2Proof.Machine

/-- The 4-bit code of a status (R95): `RSP_STATUS` and `STATUS.CODE` as bits. -/
def Status.code : Status → BitVec 4
  | .ok => 0
  | .illegal => 1
  | .reserved => 2
  | .notInit => 3
  | .operand => 4
  | .filterType => 5
  | .bitDepth => 6
  | .range => 7
  | .capacity => 8
  | .unwritten => 9
  | .faulted => 10

/-- `statusWord(S)` (R16), bits 31 down to 0: zeros, PV, FL_V, PK_V, CRC_V, CODE, zeros, FAULT. -/
def statusWord (s : State) : Word :=
  0#20 ++ BitVec.ofBool s.flPv ++ BitVec.ofBool s.flLen.isSome ++ BitVec.ofBool s.pkCap.isSome
    ++ BitVec.ofBool s.crcAcc.isSome ++ s.code.code ++ 0#3 ++ BitVec.ofBool s.fault

/-- The status the decoder's rejection raises (R50, R51). -/
def decodeStatus : DecodeError → Status
  | .illegal => .illegal
  | .reserved => .reserved

end Sys2Proof.Machine
end

