-- ==== Sys2Proof/Machine/Control.lean ====
section
/-! DEFINITION. The control commands: 44_control.md. -/

namespace Sys2Proof.Machine

/-- NOP (R93). -/
def execNop (s : State) : Result := respond 0 s

/-- ST_RD (R94): runs whether or not the block is in the fault state. -/
def execStRd (s : State) : Result := respond (statusWord s) s

end Sys2Proof.Machine
end

