-- ==== Sys2Proof/Machine/Crc.lean ====
section
/-! DEFINITION. The CRC unit: 40_crc.md, 10_state.md R20. -/

namespace Sys2Proof.Machine

/-- One round of the table rule (R20), on a 32-bit value with a logical shift (R9). -/
def crcRound (c : Word) : Word := if c.getLsbD 0 then 0xEDB88320 ^^^ (c >>> 1) else c >>> 1

/-- `k` rounds. -/
def crcRounds : Nat → Word → Word
  | 0, c => c
  | k + 1, c => crcRounds k (crcRound c)

/-- `CRC_ROM[n]` (R20): 8 rounds from `c = n`. A constant, so it is present from reset and no command writes it. -/
def crcRom (n : Byte) : Word := crcRounds 8 (n.setWidth 32)

/-- `crcUpdate` (R56). -/
def crcUpdate (acc : Word) (b : Byte) : Word := crcRom (acc.setWidth 8 ^^^ b) ^^^ (acc >>> 8)

/-- `crc(bytes)` (R57). -/
def crc (bytes : List Byte) : Word := bytes.foldl crcUpdate 0xFFFFFFFF ^^^ 0xFFFFFFFF

/-- CRC_INIT (R60). -/
def execCrcInit (s : State) : Result := respond 0 (s.withCrcAcc 0xFFFFFFFF)

/-- CRC_BYTE (R61). -/
def execCrcByte (b : BitVec 8) (s : State) : Result :=
  match s.crcAcc with
  | none => raise .notInit s
  | some acc => respond 0 (s.withCrcAcc (crcUpdate acc b))

/-- CRC_FINAL (R62). -/
def execCrcFinal (s : State) : Result :=
  match s.crcAcc with
  | none => raise .notInit s
  | some acc => respond (acc ^^^ 0xFFFFFFFF) s

/-- CRC_TBL (R63). -/
def execCrcTbl (b : BitVec 8) (s : State) : Result := respond (crcRom b) s

end Sys2Proof.Machine
end

