-- ==== Sys2Proof/Machine/Operands.lean ====
section
/-! DEFINITION. What the operand fields of the commands stand for (30_encoding.md R48) and the operand checks
the commands share (42_filter.md R80, 43_filter_select.md R92). -/

namespace Sys2Proof.Machine

/-- The kind a `kind` field names (R48): 0 to 4; 5 to 7 are "no filter". -/
def kindOfField (k : BitVec 3) : Option FilterKind :=
  match k.toNat with
  | 0 => some .none
  | 1 => some .sub
  | 2 => some .up
  | 3 => some .average
  | 4 => some .paeth
  | _ => none

/-- The number of a kind (R18, R48), as the response data `zext_32(kind)`. -/
def FilterKind.word : FilterKind → Word
  | .none => 0
  | .sub => 1
  | .up => 2
  | .average => 3
  | .paeth => 4

/-- The legal bit depths `1, 2, 4, 8, 16` (R92). -/
def legalDepth (d : BitVec 5) : Bool :=
  d.toNat == 1 || d.toNat == 2 || d.toNat == 4 || d.toNat == 8 || d.toNat == 16

/-- The buffer FL_SHIFT copies (R85). -/
def shiftSource (src : ShiftSrc) (s : State) : Memory :=
  match src with
  | .cur => s.cur
  | .out => s.out

/-- The previous row: absent with FL_PV = 0, else PREV `0 .. len-1`; none if a needed cell is unwritten. -/
def prevOperand (len : Nat) (s : State) : Option (Option (List Byte)) :=
  if s.flPv then (s.prev.readFrom rowUnlisted 0 len).map some else some none

/-- `rowOperands()` (R80): the row in CUR and the previous row; none is E_UNWRITTEN. -/
def rowOperands (len : Nat) (s : State) : Option (List Byte × Option (List Byte)) :=
  match s.cur.readFrom rowUnlisted 0 len, prevOperand len s with
  | some x, some p => some (x, p)
  | _, _ => none

end Sys2Proof.Machine
end

