-- ==== Sys2Proof/Machine/Filter.lean ====
section
/-! DEFINITION. The filter unit: 42_filter.md, 43_filter_select.md. -/

namespace Sys2Proof.Machine

/-! ### Neighbours and predictors (R70 to R73) -/

/-- `a(x, i)` (R70): the byte `bpp` back in the same row, else 0. -/
def left (x : List Byte) (bpp i : Nat) : Byte := if bpp ≤ i then x.getD (i - bpp) 0 else 0

/-- `b(p, i)` (R70): the byte of the previous row, else 0 when it is absent. -/
def up (p : Option (List Byte)) (i : Nat) : Byte :=
  match p with
  | none => 0
  | some row => row.getD i 0

/-- `c(p, i)` (R70): the byte `bpp` back in the previous row, else 0. -/
def upperLeft (p : Option (List Byte)) (bpp i : Nat) : Byte :=
  match p with
  | none => 0
  | some row => left row bpp i

/-- The Paeth predictor (R71): the sum and the distances are exact integers. -/
def paeth (a b c : Byte) : Byte :=
  let p : Int := a.toNat + b.toNat - c.toNat
  let pa := (p - a.toNat).natAbs
  let pb := (p - b.toNat).natAbs
  let pc := (p - c.toNat).natAbs
  if pa ≤ pb ∧ pa ≤ pc then a else if pb ≤ pc then b else c

/-- The predictor of each kind (R72). The Average sum is exact. -/
def pred (k : FilterKind) (a b c : Byte) : Byte :=
  match k with
  | .none => 0
  | .sub => a
  | .up => b
  | .average => BitVec.ofNat 8 ((a.toNat + b.toNat) / 2)
  | .paeth => paeth a b c

/-! ### The row transforms (R74, R75) -/

/-- `filt(k, x, p, bpp)` (R74). Subtraction on bytes is modulo 256 (R73). -/
def filt (k : FilterKind) (x : List Byte) (p : Option (List Byte)) (bpp : Nat) : List Byte :=
  (List.range x.length).map fun i => x.getD i 0 - pred k (left x bpp i) (up p i) (upperLeft p bpp i)

/-- The loop of `unfilt` (R75): `x` is what is made so far, and its length is the next index. -/
def unfiltFrom (k : FilterKind) (p : Option (List Byte)) (bpp : Nat) : List Byte → List Byte → List Byte
  | x, [] => x
  | x, y :: ys =>
    unfiltFrom k p bpp (x ++ [y + pred k (left x bpp x.length) (up p x.length) (upperLeft p bpp x.length)]) ys

/-- `unfilt(k, y, p, bpp)` (R75): `left` is taken from the row being made. -/
def unfilt (k : FilterKind) (y : List Byte) (p : Option (List Byte)) (bpp : Nat) : List Byte :=
  unfiltFrom k p bpp [] y

/-! ### Dynamic selection (R88, R89) -/

/-- `sbyte(v)` (R10). -/
def sbyte (v : Byte) : Int := if v.toNat < 128 then v.toNat else (v.toNat : Int) - 256

/-- `score(f)` (R88): exact, over the filtered bytes alone. -/
def score : List Byte → Nat
  | [] => 0
  | b :: f => (sbyte b).natAbs + score f

/-- One turn of the loop of R89; the strict comparison keeps the earlier kind. -/
def better (scoreOf : FilterKind → Nat) (best : FilterKind) (k : FilterKind) : FilterKind :=
  if scoreOf k < scoreOf best then k else best

/-- `select(x, p, bpp, gray, depth)` (R89). -/
def select (x : List Byte) (p : Option (List Byte)) (bpp : Nat) (gray : Bool) (depth : Nat) : FilterKind :=
  if gray = true ∧ depth < 8 then .none
  else [FilterKind.sub, .up, .average, .paeth].foldl (better fun k => score (filt k x p bpp)) .none

/-! ### Commands -/

/-- The end of FL_FWD, FL_INV and FL_SEL: the row into OUT `0 .. L-1`, the kind into TAG and the response. -/
def storeRow (k : FilterKind) (row : List Byte) (s : State) : Result :=
  respond k.word (s.withOut (s.out.writeFrom rowUnlisted 0 row) (some k))

/-- What FL_FWD and FL_INV share (R81, R82): the checks in order, then one transform of the row. -/
def fixedFilter (f : FilterKind → List Byte → Option (List Byte) → Nat → List Byte) (kind : BitVec 3)
    (s : State) : Result :=
  match s.flLen with
  | none => raise .notInit s
  | some len =>
    match kindOfField kind with
    | none => raise .filterType s
    | some k =>
      match rowOperands len.toNat s with
      | none => raise .unwritten s
      | some (x, p) => storeRow k (f k x p s.flBpp.toNat) s

/-- FL_CFG (R78). -/
def execFlCfg (len : BitVec 16) (bpp : BitVec 4) (pv : Bool) (s : State) : Result :=
  if len.toNat < 1 ∨ len.toNat > s.cfg.rowMax then raise .operand s
  else if bpp.toNat < 1 ∨ bpp.toNat > 8 then raise .operand s
  else respond 0 ((s.withFlCfg len bpp pv).withOut [] none)

/-- FL_WR (R79). -/
def execFlWr (sel : RowSel) (idx : BitVec 16) (byte : BitVec 8) (s : State) : Result :=
  if idx.toNat ≥ s.cfg.rowMax then raise .range s
  else
    match sel with
    | .cur => respond 0 (s.withCur (s.cur.write rowUnlisted idx.toNat byte))
    | .prev => respond 0 (s.withPrev (s.prev.write rowUnlisted idx.toNat byte))

/-- FL_FWD (R81). -/
def execFlFwd (kind : BitVec 3) (s : State) : Result := fixedFilter filt kind s

/-- FL_SEL (R92). -/
def execFlSel (gray : Bool) (depth : BitVec 5) (s : State) : Result :=
  match s.flLen with
  | none => raise .notInit s
  | some len =>
    if legalDepth depth then
      match rowOperands len.toNat s with
      | none => raise .unwritten s
      | some (x, p) =>
        let k := select x p s.flBpp.toNat gray depth.toNat
        storeRow k (filt k x p s.flBpp.toNat) s
    else raise .bitDepth s

/-- FL_INV (R82). -/
def execFlInv (kind : BitVec 3) (s : State) : Result := fixedFilter unfilt kind s

/-- FL_RDO (R83). -/
def execFlRdo (idx : BitVec 16) (s : State) : Result :=
  match s.flLen with
  | none => raise .notInit s
  | some len =>
    if idx.toNat ≥ len.toNat then raise .range s
    else
      match s.outCell idx.toNat with
      | none => raise .unwritten s
      | some b => respond (b.setWidth 32) s

/-- FL_RDT (R84). -/
def execFlRdt (s : State) : Result :=
  match s.flLen with
  | none => raise .notInit s
  | some _ =>
    match s.tag with
    | none => raise .unwritten s
    | some k => respond k.word s

/-- FL_SHIFT (R85). -/
def execFlShift (src : ShiftSrc) (s : State) : Result :=
  match s.flLen with
  | none => raise .notInit s
  | some len =>
    match (shiftSource src s).readFrom rowUnlisted 0 len.toNat with
    | none => raise .unwritten s
    | some row => respond 0 ((s.withPrev (s.prev.writeFrom rowUnlisted 0 row)).withFlPv true)

end Sys2Proof.Machine
end

