-- ==== Sys2Proof/Machine/Packer.lean ====
section
/-! DEFINITION. The bit-packer unit: 41_bitpacker.md, 20_memory.md R27, R28. -/

namespace Sys2Proof.Machine

/-- OR one bit in at bit offset `pos`: bit `7 - (pos mod 8)` of byte `floor(pos / 8)` (R27, R64). -/
def putBit (m : Memory) (pos : Nat) (bit : Bool) : Memory :=
  m.write pkUnlisted (pos / 8) (pkRead m (pos / 8) ||| ((BitVec.ofBool bit).setWidth 8 <<< (7 - pos % 8)))

/-- The loop of `put` (R64) from `j` on, `k` bits left: bit `n - 1 - j` of `val` goes to bit offset `off + j`
(R28). -/
def putFrom (off : Nat) (val : BitVec 16) (n : Nat) : Nat → Nat → Memory → Memory
  | _, 0, m => m
  | j, k + 1, m => putFrom off val n (j + 1) k (putBit m (off + j) (val.getLsbD (n - 1 - j)))

/-- `put(buf, off, val, n)` (R64), less its result `off + n`. -/
def put (m : Memory) (off : Nat) (val : BitVec 16) (n : Nat) : Memory := putFrom off val n 0 n m

/-- PK_INIT (R66). -/
def execPkInit (cap : BitVec 32) (s : State) : Result :=
  if ceil8 cap.toNat > s.cfg.pkMaxBytes then raise .capacity s
  else respond (BitVec.ofNat 32 (ceil8 cap.toNat))
    ((s.withPkBuf (s.pkBuf.clearBelow (ceil8 cap.toNat))).withPkCap cap)

/-- PK_PUT (R67). `off + n` is "computed without wrap-around". -/
def execPkPut (off : BitVec 32) (val : BitVec 16) (n : BitVec 5) (s : State) : Result :=
  match s.pkCap with
  | none => raise .notInit s
  | some cap =>
    if n.toNat < 1 ∨ n.toNat > 16 then raise .operand s
    else if off.toNat + n.toNat > cap.toNat then raise .capacity s
    else respond (BitVec.ofNat 32 (off.toNat + n.toNat)) (s.withPkBuf (put s.pkBuf off.toNat val n.toNat))

/-- PK_RDB (R68). -/
def execPkRdb (idx : BitVec 32) (s : State) : Result :=
  match s.pkCap with
  | none => raise .notInit s
  | some cap =>
    if idx.toNat ≥ ceil8 cap.toNat then raise .range s
    else respond ((s.pkByte idx.toNat).setWidth 32) s

end Sys2Proof.Machine
end

