-- ==== Sys2Proof/Machine/Dispatch.lean ====
section
/-! DEFINITION. One arm per constructor of Instr. The meanings are the rules' pseudocode: the fault gate and
decoding run before (60_exceptions.md R97, 30_encoding.md R52) and stand in Machine/Port.lean. -/

namespace Sys2Proof.Machine

def exec (i : Instr) (s : State) : Host.Outcome State Fault Refusal :=
  match i with
  | .nop => Sys2Proof.Machine.execNop s
  | .stRd => Sys2Proof.Machine.execStRd s
  | .crcInit => Sys2Proof.Machine.execCrcInit s
  | .crcByte b => Sys2Proof.Machine.execCrcByte b s
  | .crcFinal => Sys2Proof.Machine.execCrcFinal s
  | .crcTbl b => Sys2Proof.Machine.execCrcTbl b s
  | .pkInit cap => Sys2Proof.Machine.execPkInit cap s
  | .pkPut off val n => Sys2Proof.Machine.execPkPut off val n s
  | .pkRdb idx => Sys2Proof.Machine.execPkRdb idx s
  | .flCfg len bpp pv => Sys2Proof.Machine.execFlCfg len bpp pv s
  | .flWr sel idx byte => Sys2Proof.Machine.execFlWr sel idx byte s
  | .flFwd kind => Sys2Proof.Machine.execFlFwd kind s
  | .flSel gray depth => Sys2Proof.Machine.execFlSel gray depth s
  | .flInv kind => Sys2Proof.Machine.execFlInv kind s
  | .flRdo idx => Sys2Proof.Machine.execFlRdo idx s
  | .flRdt => Sys2Proof.Machine.execFlRdt s
  | .flShift src => Sys2Proof.Machine.execFlShift src s

end Sys2Proof.Machine
end

