-- ==== Sys2Proof/Machine/Port.lean ====
section
/-! DEFINITION. The command port: what the block does with each thing the host does to it (30_encoding.md R43,
60_exceptions.md R97, 70_reset_and_hazards.md R107). -/

namespace Sys2Proof.Machine

/-- The exact ST_RD word, the one word the fault gate lets through (R97). -/
def stRdWord : Cmd := 0x0100000000000000

/-- The fault gate turns the word away (R97). -/
def gateCloses (s : State) (w : Cmd) : Bool := s.fault && w != stRdWord

/-- What the gate answers (R97): the response E_FAULTED with data 0; "no state changes". -/
def gated (s : State) : Result := .next (s.withRsp .faulted 0)

/-- One command word: the fault gate (R97), decoding (R52), then the command's rule, in the order of R100. -/
def runCommand (w : Cmd) (s : State) : Result :=
  if gateCloses s w then gated s
  else
    match decode w with
    | .error e => raise (decodeStatus e) s
    | .ok i => exec i s

/-- Reset (R107). A command cut off by it has no effect, so `pending` is not read. -/
def runReset (_pending : Option Cmd) (s : State) : Result := .next s.afterReset

/-- While the host presents nothing the block waits (R35, R108) and nothing changes (log 6). -/
def wait (s : State) : Result := .next s

/-- One input of the host. -/
def runInput (i : HostInput) (s : State) : Result :=
  match i with
  | .command w => runCommand w s
  | .reset pending => runReset pending s

/-- The block takes the oldest input from the port (R37, R43). -/
def serve (s : State) : Result :=
  match s.port with
  | [] => wait s
  | i :: rest => runInput i (s.withPort rest)

/-- The host presents one more word, before the inputs the port already holds. -/
def State.presentFirst (s : State) (w : Cmd) : State := s.withPort (.command w :: s.port)

/-- The inputs by which the host runs a list of commands (R14). -/
def commandInputs (is : List Instr) : List HostInput := is.map fun i => .command (encode i)

/-- The `CRC32` pseudo-instruction's commands (R55). -/
def crc32Commands (bytes : List Byte) : List Instr := .crcInit :: bytes.map .crcByte ++ [.crcFinal]

end Sys2Proof.Machine
end

