-- ==== Sys2Proof/Machine/Step.lean ====
section
/-! DEFINITION. One step of the block: one input of the host, taken and carried out as a whole (00_scope.md R12). -/

namespace Sys2Proof.Machine

/-- One step. -/
def step (s : State) : Host.Outcome State Fault Refusal := serve s

/-- The host presents the command of a table word: the very next step runs it. This is how a program comes to
run from `State.reset`: the host presents its commands on the port (R14, R43, log 1). -/
def State.withFetchWord (s : State) (nbits w : Nat) : State := s.presentFirst (tableWord nbits w)

end Sys2Proof.Machine
end

