-- ==== Sys2Proof/Machine/Asm.lean ====
section
/-! DEFINITION. The assembler (30_encoding.md R54) and the pseudo-instructions (R55). It is the host's: no step
of the block uses it. -/

namespace Sys2Proof

/-! ### From a line to a command -/

/-- The operand values of a line, field by field; 0 where an operand has none (`AsmLine.wellFormed` rules that
out). -/
def operandValues : List Field → List AsmOperand → List Nat
  | f :: fs, o :: os => (o.value f).getD 0 :: operandValues fs os
  | _, _ => []

/-- The command with the given operand values, in the order of R54. -/
def buildInstr (o : Op) (vs : List Nat) : Instr :=
  let v := fun k => vs.getD k 0
  match o with
  | .nop => .nop
  | .stRd => .stRd
  | .crcInit => .crcInit
  | .crcByte => .crcByte (BitVec.ofNat 8 (v 0))
  | .crcFinal => .crcFinal
  | .crcTbl => .crcTbl (BitVec.ofNat 8 (v 0))
  | .pkInit => .pkInit (BitVec.ofNat 32 (v 0))
  | .pkPut => .pkPut (BitVec.ofNat 32 (v 0)) (BitVec.ofNat 16 (v 1)) (BitVec.ofNat 5 (v 2))
  | .pkRdb => .pkRdb (BitVec.ofNat 32 (v 0))
  | .flCfg => .flCfg (BitVec.ofNat 16 (v 0)) (BitVec.ofNat 4 (v 1)) (v 2 == 1)
  | .flWr => .flWr (RowSel.ofBit (v 0 == 1)) (BitVec.ofNat 16 (v 1)) (BitVec.ofNat 8 (v 2))
  | .flFwd => .flFwd (BitVec.ofNat 3 (v 0))
  | .flSel => .flSel (v 0 == 1) (BitVec.ofNat 5 (v 1))
  | .flInv => .flInv (BitVec.ofNat 3 (v 0))
  | .flRdo => .flRdo (BitVec.ofNat 16 (v 0))
  | .flRdt => .flRdt
  | .flShift => .flShift (ShiftSrc.ofBit (v 0 == 1))

/-- The assembler (R54): a line that is not well-formed is refused. -/
def assemble (l : AsmLine) : Option Instr :=
  if l.wellFormed then some (buildInstr l.op (operandValues l.op.fields l.operands)) else none

/-- The lines of a list of byte or sample values, each from its place in the list and its value. -/
def eachLine (f : Nat → Nat → AsmLine) : Nat → List Nat → List AsmLine
  | _, [] => []
  | j, v :: vs => f j v :: eachLine f (j + 1) vs

/-- `PK_SAMPLES off, n, v0, ..., v(k-1)` (R55). -/
def pkSamplesLines (off n : Nat) (vals : List Nat) : List AsmLine :=
  eachLine (fun j v => ⟨.pkPut, [.num (off + j * n), .num v, .num n]⟩) 0 vals

/-- The fixed expansions of R55. -/
def Pseudo.expand : Pseudo → List AsmLine
  | .crc32 bytes => ⟨.crcInit, []⟩ :: eachLine (fun _ b => ⟨.crcByte, [.num b]⟩) 0 bytes ++ [⟨.crcFinal, []⟩]
  | .flLoad sel i bytes => eachLine (fun j b => ⟨.flWr, [sel, .num (i + j), .num b]⟩) 0 bytes
  | .flRead k => ⟨.flRdt, []⟩ :: (List.range k).map fun j => ⟨.flRdo, [.num j]⟩
  | .pkSamples off n vals => pkSamplesLines off n vals
  | .pkRow r rowBytes n vals => pkSamplesLines (8 * rowBytes * r) n vals

/-! ### From text to a line -/

/-- The mnemonics as R49 and R54 spell them. -/
def Op.name : Op → String
  | .nop => "NOP"
  | .stRd => "ST_RD"
  | .crcInit => "CRC_INIT"
  | .crcByte => "CRC_BYTE"
  | .crcFinal => "CRC_FINAL"
  | .crcTbl => "CRC_TBL"
  | .pkInit => "PK_INIT"
  | .pkPut => "PK_PUT"
  | .pkRdb => "PK_RDB"
  | .flCfg => "FL_CFG"
  | .flWr => "FL_WR"
  | .flFwd => "FL_FWD"
  | .flSel => "FL_SEL"
  | .flInv => "FL_INV"
  | .flRdo => "FL_RDO"
  | .flRdt => "FL_RDT"
  | .flShift => "FL_SHIFT"

/-- The symbols as R54 spells them. -/
def symbolNames : List (String × Symbol) :=
  [("CUR", .CUR), ("PREV", .PREV), ("OUT", .OUT), ("NONE", .NONE), ("SUB", .SUB), ("UP", .UP), ("AVG", .AVG),
   ("PAETH", .PAETH), ("NOPREV", .NOPREV), ("HASPREV", .HASPREV)]

/-- The digits of a hexadecimal number, each at the place of its value; a decimal number uses the first ten. -/
def digitChars : List Char := "0123456789ABCDEF".toList

/-- The value of a digit: its place among the digits. Hexadecimal digits are read in either case (log 10). -/
def digitValue (c : Char) : Option Nat := digitChars.findIdx? fun d => d == c.toUpper

/-- The digits of a number in base `base`, after the value `acc` of those before. -/
def digitsFrom (base : Nat) : Nat → List Char → Option Nat
  | acc, [] => some acc
  | acc, c :: cs =>
    match digitValue c with
    | some d => if d < base then digitsFrom base (acc * base + d) cs else none
    | none => none

/-- A number "in decimal or `0x` hexadecimal" (R54). -/
def parseNumber : List Char → Option Nat
  | [] => none
  | '0' :: 'x' :: [] => none
  | '0' :: 'x' :: cs => digitsFrom 16 0 cs
  | cs => digitsFrom 10 0 cs

/-- A symbol or a number (R54). -/
def parseOperand (cs : List Char) : Option AsmOperand :=
  match symbolNames.find? fun p => p.1.toList == cs with
  | some p => some (.sym p.2)
  | none => (parseNumber cs).map .num

/-- Leave out the blanks at both ends. -/
def trimBlanks (cs : List Char) : List Char :=
  ((cs.dropWhile (· == ' ')).reverse.dropWhile (· == ' ')).reverse

/-- Every piece is an operand. -/
def parseOperands : List (List Char) → Option (List AsmOperand)
  | [] => some []
  | cs :: rest =>
    match parseOperand (trimBlanks cs), parseOperands rest with
    | some o, some os => some (o :: os)
    | _, _ => none

/-- A line `MNEMONIC operand, operand, ...` (R54); blanks around its parts are left out (log 10). -/
def parseLine (text : List Char) : Option AsmLine :=
  let line := trimBlanks text
  let word := line.takeWhile (· != ' ')
  let rest := trimBlanks (line.dropWhile (· != ' '))
  match opcodeMap.find? fun o => o.name.toList == word with
  | none => none
  | some o =>
    if rest.isEmpty then some ⟨o, []⟩
    else (parseOperands (rest.splitOn ',')).map fun os => ⟨o, os⟩

/-- A source line to its command word. -/
def assembleText (text : String) : Option Cmd := ((parseLine text.toList).bind assemble).map encode

end Sys2Proof
end

