-- ==== Sys2Proof/Safety.lean ====
section
/-! DEFINITION. What counts as a good state and a safe run, in the terms the claims use. -/

namespace Sys2Proof.Machine

/-- The block is not in the fault state. "A model should treat STATUS.FAULT = 1 as its fault outcome: never
cleared by a later command, and never a final state of a run that a claim can be satisfied by"
(60_exceptions.md, after R99). -/
abbrev State.healthy (s : State) : Prop := s.fault = false

/-- A run of `k` steps that ends outside the fault state. By R102 no state on its way was faulted, but for one
that a reset of the run's own left. -/
def SafeRun (k : Nat) (s : State) : Prop := ∃ t, Sys2Proof.core.run k s = .next t ∧ t.healthy

/-- The elements R25 lists are at their reset values, FL_BPP and PK_BUF left out: their values after reset are
unspecified. -/
def State.AtReset (s : State) : Prop :=
  s.fault = false ∧ s.code = .ok ∧ s.crcAcc = none ∧ s.pkCap = none ∧ s.flLen = none ∧ s.flPv = false
    ∧ (∀ i, s.curCell i = none) ∧ (∀ i, s.prevCell i = none) ∧ (∀ i, s.outCell i = none) ∧ s.tag = none

/-- The status register (R15): CODE is OK exactly while FAULT = 0, and E_FAULTED is a response only (R97). -/
def State.StatusConsistent (s : State) : Prop := (s.fault = false ↔ s.code = .ok) ∧ s.code ≠ .faulted

/-- The four buffers are in their canonical form (log 12). -/
def State.BuffersCanonical (s : State) : Prop :=
  s.pkBuf.wf pkUnlisted = true ∧ s.cur.wf rowUnlisted = true ∧ s.prev.wf rowUnlisted = true
    ∧ s.out.wf rowUnlisted = true

/-- Nothing is listed outside a buffer (R22, R23, R26). -/
def State.BuffersInBounds (s : State) : Prop :=
  s.pkBuf.below s.cfg.pkMaxBytes = true ∧ s.cur.below s.cfg.rowMax = true ∧ s.prev.below s.cfg.rowMax = true
    ∧ s.out.below s.cfg.rowMax = true

/-- The configuration registers never hold an illegal value: FL_LEN and FL_BPP (R17), PK_CAP (R66). -/
def State.RegistersLegal (s : State) : Prop :=
  (∀ len, s.flLen = some len → 1 ≤ len.toNat ∧ len.toNat ≤ s.cfg.rowMax ∧ 1 ≤ s.flBpp.toNat ∧ s.flBpp.toNat ≤ 8)
    ∧ (∀ cap, s.pkCap = some cap → ceil8 cap.toNat ≤ s.cfg.pkMaxBytes)

/-- The bits of the last accessible byte past the capacity are 0 (R68, corner cases). -/
def State.PaddingZero (s : State) : Prop :=
  ∀ cap, s.pkCap = some cap → ∀ k, cap.toNat ≤ k → k < 8 * ceil8 cap.toNat → s.pkBit k = false

/-- OUT holds a whole row exactly while TAG holds its kind (R78, R83, R84, R114). -/
def State.OutputWhole (s : State) : Prop :=
  match s.tag with
  | none => ∀ i, s.outCell i = none
  | some _ => ∃ len, s.flLen = some len ∧ ∀ i, (s.outCell i).isSome = true ↔ i < len.toNat

/-- What holds at reset and every step keeps. -/
structure State.Inv (s : State) : Prop where
  cfg_legal : s.cfg.legal = true
  status : s.StatusConsistent
  canonical : s.BuffersCanonical
  inBounds : s.BuffersInBounds
  registers : s.RegistersLegal
  padding : s.PaddingZero
  output : s.OutputWhole

end Sys2Proof.Machine
end

