-- ==== Sys2Proof/Certificates/Slice0/Obligations.lean ====
section
/-! DEFINITION. The statements for the provers. `exec` is a command's rule alone: the fault gate and decoding run
before it, and the statements about `step` and `run` say so. "The state with FAULT and CODE set" is fault entry
(60_exceptions.md R98). The spec's command port, reset input and response port stand in the model as the fields `port`
(log 1, log 8) and `rsp` (log 5): every statement about `step` or `run` is about that form. Where a clause is
otherwise the model's own choice, the statement's docstring names the log entry. -/

open Sys2Proof Sys2Proof.Machine

/-! ### Reset -/

/-- R25: the values the spec states for reset. FL_BPP and PK_BUF are "unspecified" and are not named. -/
def Obligations.ResetValuesAreR25 : Prop :=
  State.reset.fault = false ∧ State.reset.code.code = 0 ∧ State.reset.crcAcc = none ∧ State.reset.pkCap = none
    ∧ State.reset.flLen = none ∧ State.reset.flPv = false ∧ State.reset.tag = none
    ∧ (∀ i, State.reset.curCell i = none) ∧ (∀ i, State.reset.prevCell i = none)
    ∧ (∀ i, State.reset.outCell i = none)

/-- R107: reset sets every element whose reset value R25 states, whatever the state was, the fault state
included; it gives no response, and a command it cuts off has no effect. -/
def Obligations.ResetInputRestoresR25 : Prop :=
  ∀ (s : State) (pending : Option Cmd) (rest : List HostInput), s.port = .reset pending :: rest →
    ∃ t, step s = .next t ∧ t.AtReset ∧ t.rsp = none
      ∧ ∀ pending', step { s with port := .reset pending' :: rest } = .next t

/-! ### One step -/

/-- A step runs the decoded command: the word at the head of the port is taken, the gate lets it through, and the
rest is the command's rule (R52, R97). How the word reaches the block is the model's own (log 1). -/
def Obligations.StepRunsDecodedCommand : Prop :=
  ∀ (s : State) (w : Cmd) (rest : List HostInput) (i : Instr), s.port = .command w :: rest →
    (s.fault = false ∨ w = 0x0100000000000000) → decode w = .ok i →
    step s = exec i { s with port := rest }

/-- R97: while FAULT = 1 every word but the exact ST_RD word is answered E_FAULTED with data 0, and no state
changes; CODE keeps its value. -/
def Obligations.FaultGateTurnsWordsAway : Prop :=
  ∀ (s : State) (w : Cmd) (rest : List HostInput), s.port = .command w :: rest → s.fault = true →
    w ≠ 0x0100000000000000 →
    step s = .next { s with port := rest, rsp := some { status := .faulted, data := 0 } }

/-- R50: an unassigned opcode, whatever the other bits, raises E_ILLEGAL. -/
def Obligations.UnassignedOpcodeRaisesIllegal : Prop :=
  ∀ (s : State) (w : Cmd) (rest : List HostInput), s.port = .command w :: rest → s.fault = false →
    (∃ opc, opc = w.toNat / 2 ^ 56 ∧
      ((0x02 ≤ opc ∧ opc ≤ 0x0F) ∨ (0x14 ≤ opc ∧ opc ≤ 0x1F) ∨ (0x23 ≤ opc ∧ opc ≤ 0x2F)
        ∨ (0x38 ≤ opc ∧ opc ≤ 0xFF))) →
    step s = .next { s with port := rest, fault := true, code := .illegal,
                            rsp := some { status := .illegal, data := 0 } }

/-- The operand bits of each format as R46 lists them, (high, low). -/
def Sys2Proof.r46Fields : Format → List (Nat × Nat)
  | .Z => []
  | .B => [(7, 0)]
  | .W => [(31, 0)]
  | .P => [(55, 24), (23, 8), (4, 0)]
  | .C => [(23, 8), (7, 4), (0, 0)]
  | .R => [(24, 24), (23, 8), (7, 0)]
  | .K => [(2, 0)]
  | .S => [(5, 5), (4, 0)]
  | .I => [(15, 0)]
  | .X => [(0, 0)]

/-- R51: an assigned opcode with a set bit of `CMD[55:0]` outside its format's fields raises E_RESERVED, in
every state that is not faulted, and nothing of the command is executed. -/
def Obligations.ReservedBitRaisesReserved : Prop :=
  ∀ (s : State) (w : Cmd) (rest : List HostInput) (o : Op) (k : Nat), s.port = .command w :: rest →
    s.fault = false → w.toNat / 2 ^ 56 = o.opc.toNat → k < 56 → w.getLsbD k = true →
    (∀ r ∈ r46Fields o.format, ¬(r.2 ≤ k ∧ k ≤ r.1)) →
    step s = .next { s with port := rest, fault := true, code := .reserved,
                            rsp := some { status := .reserved, data := 0 } }

/-- R43, R120 and 93_implementation_defined.md: every command word, in every state, gives exactly one response and
a next state, and the block takes nothing else from the host. -/
def Obligations.OneResponsePerCommand : Prop :=
  ∀ (s : State) (w : Cmd) (rest : List HostInput), s.port = .command w :: rest →
    ∃ t r, step s = .next t ∧ t.rsp = some r ∧ t.port = rest ∧ (r.status ≠ .ok → r.data = 0)

/-- R120: every command completes, so a finite list of inputs runs to its end; further steps then change nothing
(the model's waiting, log 6). -/
def Obligations.InputListRunsToItsEnd : Prop :=
  ∀ s : State, ∃ t, t.port = [] ∧ ∀ n, Sys2Proof.core.run (s.port.length + n) s = .next t

/-! ### Encoding -/

/-- Decoding the encoding of any command gives it back, with every operand at every value. -/
def Obligations.DecodeOfEncode : Prop := ∀ i : Instr, decode (encode i) = .ok i

/-- Each word is at most one command: a word that decodes is the encoding of what it decodes to. -/
def Obligations.EncodeOfDecode : Prop := ∀ (w : Cmd) (i : Instr), decode w = .ok i → encode i = w

/-- R52: the decoder answers a row's command exactly when `(w and mask) = match`; it raises E_ILLEGAL exactly when
the opcode is no row's; it raises E_RESERVED in every other case. -/
def Obligations.DecoderAgreesWithOpcodeTable : Prop :=
  (∀ w : Cmd, ∀ row ∈ opcodeTable,
    ((∃ i, decode w = .ok i ∧ i.op = row.1) ↔ w &&& row.2.2 = row.2.1))
  ∧ (∀ w : Cmd, decode w = .error .illegal ↔ ∀ row ∈ opcodeTable, w >>> 56 ≠ row.2.1 >>> 56)
  ∧ (∀ w : Cmd, decode w = .error .reserved ↔
      (∃ row ∈ opcodeTable, w >>> 56 = row.2.1 >>> 56) ∧ ∀ row ∈ opcodeTable, w &&& row.2.2 ≠ row.2.1)

/-- R46 and R49: the opcode and the place of every field, as a sum of powers of two. -/
def Obligations.EncodingLayouts : Prop :=
  (encode .nop).toNat = 0x00 * 2 ^ 56 ∧ (encode .stRd).toNat = 0x01 * 2 ^ 56
  ∧ (encode .crcInit).toNat = 0x10 * 2 ^ 56
  ∧ (∀ b, (encode (.crcByte b)).toNat = 0x11 * 2 ^ 56 + b.toNat)
  ∧ (encode .crcFinal).toNat = 0x12 * 2 ^ 56
  ∧ (∀ b, (encode (.crcTbl b)).toNat = 0x13 * 2 ^ 56 + b.toNat)
  ∧ (∀ cap, (encode (.pkInit cap)).toNat = 0x20 * 2 ^ 56 + cap.toNat)
  ∧ (∀ off val n, (encode (.pkPut off val n)).toNat
      = 0x21 * 2 ^ 56 + off.toNat * 2 ^ 24 + val.toNat * 2 ^ 8 + n.toNat)
  ∧ (∀ idx, (encode (.pkRdb idx)).toNat = 0x22 * 2 ^ 56 + idx.toNat)
  ∧ (∀ len bpp pv, (encode (.flCfg len bpp pv)).toNat
      = 0x30 * 2 ^ 56 + len.toNat * 2 ^ 8 + bpp.toNat * 2 ^ 4 + pv.toNat)
  ∧ (∀ sel idx byte, (encode (.flWr sel idx byte)).toNat
      = 0x31 * 2 ^ 56 + (if sel = .prev then 1 else 0) * 2 ^ 24 + idx.toNat * 2 ^ 8 + byte.toNat)
  ∧ (∀ kind, (encode (.flFwd kind)).toNat = 0x32 * 2 ^ 56 + kind.toNat)
  ∧ (∀ gray depth, (encode (.flSel gray depth)).toNat = 0x33 * 2 ^ 56 + gray.toNat * 2 ^ 5 + depth.toNat)
  ∧ (∀ kind, (encode (.flInv kind)).toNat = 0x34 * 2 ^ 56 + kind.toNat)
  ∧ (∀ idx, (encode (.flRdo idx)).toNat = 0x35 * 2 ^ 56 + idx.toNat)
  ∧ (encode .flRdt).toNat = 0x36 * 2 ^ 56
  ∧ (∀ src, (encode (.flShift src)).toNat = 0x37 * 2 ^ 56 + (if src = .out then 1 else 0))

/-- Eight words of the spec decode to the commands they stand for: seven are the examples of R61, R66, R67, R78,
R79, R92 and R83, and the eighth, `FL_SHIFT OUT`, stands in 95_test_vectors.md 2.6 and P3-D. -/
def Obligations.ExampleWordsDecode : Prop :=
  decode 0x1100000000000049 = .ok (.crcByte 0x49) ∧ decode 0x2000000000000018 = .ok (.pkInit 24)
  ∧ decode 0x2100000007FFFF10 = .ok (.pkPut 7 0xFFFF 16) ∧ decode 0x3000000000000411 = .ok (.flCfg 4 1 true)
  ∧ decode 0x31000000000002FF = .ok (.flWr .cur 2 0xFF) ∧ decode 0x3300000000000022 = .ok (.flSel true 2)
  ∧ decode 0x3500000000000003 = .ok (.flRdo 3) ∧ decode 0x3700000000000001 = .ok (.flShift .out)

/-! ### Control unit and status register -/

/-- R93: NOP writes nothing and responds 0. -/
def Obligations.NopWritesNothing : Prop :=
  ∀ s : State, exec .nop s = .next { s with rsp := some { status := .ok, data := 0 } }

/-- R16: the layout of the status word, as a sum; every bit not listed is 0. -/
def Obligations.StatusWordLayout : Prop :=
  ∀ s : State, (statusWord s).toNat
    = s.fault.toNat + 2 ^ 4 * s.code.code.toNat + 2 ^ 8 * s.crcAcc.isSome.toNat + 2 ^ 9 * s.pkCap.isSome.toNat
      + 2 ^ 10 * s.flLen.isSome.toNat + 2 ^ 11 * s.flPv.toNat

/-- R94: ST_RD writes nothing and responds the status word, and its exact word is executed whether FAULT is 0 or
1; any other word with its opcode is E_RESERVED while FAULT = 0 and E_FAULTED while FAULT = 1. -/
def Obligations.StatusReadAlwaysRuns : Prop :=
  (∀ s : State, exec .stRd s = .next { s with rsp := some { status := .ok, data := statusWord s } })
  ∧ (∀ (s : State) (rest : List HostInput), s.port = .command 0x0100000000000000 :: rest →
      step s = .next { s with port := rest, rsp := some { status := .ok, data := statusWord s } })
  ∧ (∀ (s : State) (w : Cmd) (rest : List HostInput), s.port = .command w :: rest → w.toNat / 2 ^ 56 = 0x01 →
      w ≠ 0x0100000000000000 →
      step s = .next (if s.fault
        then { s with port := rest, rsp := some { status := .faulted, data := 0 } }
        else { s with port := rest, fault := true, code := .reserved,
                      rsp := some { status := .reserved, data := 0 } }))

/-- R95: the number of each code. -/
def Obligations.ErrorCodeNumbers : Prop :=
  [Status.ok, .illegal, .reserved, .notInit, .operand, .filterType, .bitDepth, .range, .capacity, .unwritten,
    .faulted].map (fun e => e.code.toNat) = [0, 1, 2, 3, 4, 5, 6, 7, 8, 9, 10]

/-! ### CRC unit -/

/-- R60: CRC_INIT sets the accumulator, whether it was written or not, and nothing else. -/
def Obligations.CrcInitSetsAccumulator : Prop :=
  ∀ s : State, exec .crcInit s
    = .next { s with crcAcc := some 0xFFFFFFFF, rsp := some { status := .ok, data := 0 } }

/-- R61 and R56: CRC_BYTE folds its byte into a written accumulator, and raises E_NOTINIT on an unwritten one. -/
def Obligations.CrcByteFoldsByte : Prop :=
  ∀ (s : State) (b : Byte),
    (∀ acc, s.crcAcc = some acc → exec (.crcByte b) s
      = .next { s with crcAcc := some (crcRom (((acc ^^^ b.setWidth 32) &&& 0xFF).setWidth 8) ^^^ (acc >>> 8)),
                       rsp := some { status := .ok, data := 0 } })
    ∧ (s.crcAcc = none → exec (.crcByte b) s
      = .next { s with fault := true, code := .notInit, rsp := some { status := .notInit, data := 0 } })

/-- R62: CRC_FINAL responds the accumulator xor 0xFFFFFFFF and writes nothing. -/
def Obligations.CrcFinalRespondsCrc : Prop :=
  ∀ s : State,
    (∀ acc, s.crcAcc = some acc →
      exec .crcFinal s = .next { s with rsp := some { status := .ok, data := acc ^^^ 0xFFFFFFFF } })
    ∧ (s.crcAcc = none → exec .crcFinal s
      = .next { s with fault := true, code := .notInit, rsp := some { status := .notInit, data := 0 } })

/-- R63 and R20: CRC_TBL responds the table entry, which is eight rounds of the table rule from the index. That the
rounds start from the index is an inference R20 marks as the spec's own. -/
def Obligations.CrcTblRespondsTableEntry : Prop :=
  ∀ (s : State) (b : Byte),
    let round := fun c : BitVec 32 => if c &&& 1 = 1 then 0xEDB88320 ^^^ (c >>> 1) else c >>> 1
    exec (.crcTbl b) s = .next { s with rsp := some { status := .ok, data := round^[8] (b.setWidth 32) } }

/-- R57: the two values the source gives, the CRC of no bytes and of "IEND". -/
def Obligations.CrcOfSourceVectors : Prop := crc [] = 0 ∧ crc [0x49, 0x45, 0x4E, 0x44] = 0xAE426082

/-- R58: the commands of `CRC32 b0, ...`, in a state that is not faulted, respond the CRC of the bytes and leave
it, xor 0xFFFFFFFF, in the accumulator; nothing else changes. -/
def Obligations.CrcSequenceRespondsCrc : Prop :=
  ∀ (s : State) (bytes : List Byte) (rest : List HostInput), s.fault = false →
    s.port = commandInputs (crc32Commands bytes) ++ rest →
    Sys2Proof.core.run (bytes.length + 2) s
      = .next { s with port := rest, crcAcc := some (crc bytes ^^^ 0xFFFFFFFF),
                       rsp := some { status := .ok, data := crc bytes } }

/-- R113: after CRC_FINAL, more CRC_BYTEs without CRC_INIT continue the sequence, and the next CRC_FINAL responds
the CRC of all the bytes. -/
def Obligations.CrcContinuesWithoutInit : Prop :=
  ∀ (s : State) (first more : List Byte), s.fault = false →
    s.port = commandInputs (crc32Commands first ++ more.map .crcByte ++ [.crcFinal]) →
    ∃ t, Sys2Proof.core.run (first.length + more.length + 3) s = .next t
      ∧ t.rsp = some { status := .ok, data := crc (first ++ more) } ∧ t.port = []

/-! ### Bit packer -/

/-- R66: PK_INIT zeroes the rounded-up bytes, writes PK_CAP and responds the byte count; every other element is as
before. A capacity above the buffer raises E_CAPACITY. That the bytes at and above the rounded-up count keep what
they held is the model's choice (log 16, DESIGN CHOICE): R22 leaves their values open. -/
def Obligations.PkInitZeroesBuffer : Prop :=
  ∀ (s : State) (cap : BitVec 32),
    ((cap.toNat + 7) / 8 ≤ s.cfg.pkMaxBytes →
      ∃ t, exec (.pkInit cap) s = .next t
        ∧ t = { s with pkCap := some cap, pkBuf := t.pkBuf,
                       rsp := some { status := .ok, data := BitVec.ofNat 32 ((cap.toNat + 7) / 8) } }
        ∧ (∀ j, j < (cap.toNat + 7) / 8 → t.pkByte j = 0)
        ∧ (∀ j, (cap.toNat + 7) / 8 ≤ j → t.pkByte j = s.pkByte j))
    ∧ ((cap.toNat + 7) / 8 > s.cfg.pkMaxBytes → exec (.pkInit cap) s
        = .next { s with fault := true, code := .capacity, rsp := some { status := .capacity, data := 0 } })

/-- R67 and R64: PK_PUT ORs bit `n - 1 - j` of `val` into bit offset `off + j`, sets no other bit, clears none,
and responds `off + n`; its three errors come in the order of R67, and the capacity check does not wrap. -/
def Obligations.PkPutOrsSample : Prop :=
  ∀ (s : State) (off : BitVec 32) (val : BitVec 16) (n : BitVec 5),
    (s.pkCap = none → exec (.pkPut off val n) s
      = .next { s with fault := true, code := .notInit, rsp := some { status := .notInit, data := 0 } })
    ∧ (∀ cap, s.pkCap = some cap →
      ((n.toNat = 0 ∨ 17 ≤ n.toNat) → exec (.pkPut off val n) s
        = .next { s with fault := true, code := .operand, rsp := some { status := .operand, data := 0 } })
      ∧ (1 ≤ n.toNat → n.toNat ≤ 16 → off.toNat + n.toNat > cap.toNat → exec (.pkPut off val n) s
        = .next { s with fault := true, code := .capacity, rsp := some { status := .capacity, data := 0 } })
      ∧ (1 ≤ n.toNat → n.toNat ≤ 16 → off.toNat + n.toNat ≤ cap.toNat →
        ∃ t, exec (.pkPut off val n) s = .next t
          ∧ t = { s with pkBuf := t.pkBuf,
                         rsp := some { status := .ok, data := BitVec.ofNat 32 (off.toNat + n.toNat) } }
          ∧ (∀ j, j < n.toNat →
              t.pkBit (off.toNat + j) = (s.pkBit (off.toNat + j) || val.getLsbD (n.toNat - 1 - j)))
          ∧ (∀ k, k < off.toNat ∨ off.toNat + n.toNat ≤ k → t.pkBit k = s.pkBit k)
          ∧ (∀ a, a < off.toNat / 8 ∨ (off.toNat + n.toNat - 1) / 8 < a → t.pkByte a = s.pkByte a)))

/-- R68: PK_RDB responds the byte and writes nothing; its two errors come in the order of R68. -/
def Obligations.PkRdbRespondsByte : Prop :=
  ∀ (s : State) (idx : BitVec 32),
    (s.pkCap = none → exec (.pkRdb idx) s
      = .next { s with fault := true, code := .notInit, rsp := some { status := .notInit, data := 0 } })
    ∧ (∀ cap, s.pkCap = some cap →
      (idx.toNat ≥ (cap.toNat + 7) / 8 → exec (.pkRdb idx) s
        = .next { s with fault := true, code := .range, rsp := some { status := .range, data := 0 } })
      ∧ (idx.toNat < (cap.toNat + 7) / 8 → exec (.pkRdb idx) s
        = .next { s with rsp := some { status := .ok, data := (s.pkByte idx.toNat).setWidth 32 } }))

/-- A chain of PK_PUTs of one width (`PK_SAMPLES`, R55, R67): sample `j` lands most significant bit first at
`off + j*n`, ORed with what was there; every other bit is as before. -/
def Obligations.PkSamplesLandInOrder : Prop :=
  ∀ (s : State) (cap : BitVec 32) (off : Nat) (n : BitVec 5) (vals : List (BitVec 16)) (rest : List HostInput),
    s.fault = false → s.pkCap = some cap → 1 ≤ n.toNat → n.toNat ≤ 16 →
    off + vals.length * n.toNat ≤ cap.toNat →
    s.port = commandInputs (vals.mapIdx fun j v => .pkPut (BitVec.ofNat 32 (off + j * n.toNat)) v n) ++ rest →
    ∃ t, Sys2Proof.core.run vals.length s = .next t ∧ t.port = rest ∧ t.fault = false ∧ t.pkCap = some cap
      ∧ (∀ j i, j < vals.length → i < n.toNat → t.pkBit (off + j * n.toNat + i)
          = (s.pkBit (off + j * n.toNat + i) || (vals.getD j 0).getLsbD (n.toNat - 1 - i)))
      ∧ (∀ k, k < off ∨ off + vals.length * n.toNat ≤ k → t.pkBit k = s.pkBit k)

/-! ### Filter unit: data paths -/

/-- R71: the Paeth predictor is the one of the three nearest to `a + b - c`, with exact integers, and ties go to
left, then up, then upperLeft. -/
def Obligations.PaethPicksNearest : Prop :=
  ∀ a b c : Byte,
    let p : Int := (a.toNat : Int) + b.toNat - c.toNat
    let dist := fun v : Byte => |p - (v.toNat : Int)|
    (dist a ≤ dist b ∧ dist a ≤ dist c → paeth a b c = a)
    ∧ (¬(dist a ≤ dist b ∧ dist a ≤ dist c) → dist b ≤ dist c → paeth a b c = b)
    ∧ (¬(dist a ≤ dist b ∧ dist a ≤ dist c) → ¬dist b ≤ dist c → paeth a b c = c)
    ∧ dist (paeth a b c) ≤ dist a ∧ dist (paeth a b c) ≤ dist b ∧ dist (paeth a b c) ≤ dist c

/-- R74, with R70, R72 and R73: each forward-filtered byte, over exact integers with one reduction modulo 256 at
the end. -/
def Obligations.ForwardFilterBytes : Prop :=
  ∀ (k : FilterKind) (x : List Byte) (p : Option (List Byte)) (bpp i : Nat), i < x.length →
    let a : Byte := if bpp ≤ i then x.getD (i - bpp) 0 else 0
    let b : Byte := (p.map fun row => row.getD i 0).getD 0
    let c : Byte := if bpp ≤ i then (p.map fun row => row.getD (i - bpp) 0).getD 0 else 0
    let q : Int := match k with
      | .none => 0
      | .sub => a.toNat
      | .up => b.toNat
      | .average => ((a.toNat : Int) + b.toNat) / 2
      | .paeth => (paeth a b c).toNat
    (((filt k x p bpp).getD i 0).toNat : Int) = ((x.getD i 0).toNat - q) % 256
      ∧ (filt k x p bpp).length = x.length

/-- R75: the inverse filter is the row whose byte `i` is the filtered byte plus the predictor of the row's OWN
earlier bytes, modulo 256. For Average and Paeth that `left` is the reconstructed byte is an inference R75 marks as
the spec's own. -/
def Obligations.InverseFilterBytes : Prop :=
  ∀ (k : FilterKind) (y : List Byte) (p : Option (List Byte)) (bpp i : Nat), 1 ≤ bpp → i < y.length →
    let x := unfilt k y p bpp
    x.length = y.length ∧ x.getD i 0 = y.getD i 0 + pred k (left x bpp i) (up p i) (upperLeft p bpp i)

/-- R76, which the spec marks as derived: unfiltering a filtered row gives the row back, for every kind, every bpp
from 1 to 8, and a previous row that is absent or of the same length. -/
def Obligations.InverseUndoesForward : Prop :=
  ∀ (k : FilterKind) (x : List Byte) (p : Option (List Byte)) (bpp : Nat), 1 ≤ bpp → bpp ≤ 8 →
    (∀ row, p = some row → row.length = x.length) →
    unfilt k (filt k x p bpp) p bpp = x

/-- R77, which the spec marks as derived: with no previous row Up is None, Paeth is Sub and Average predicts `floor(a / 2)`; at the first `bpp`
bytes Sub is None and Paeth is Up. -/
def Obligations.MissingNeighboursCollapseFilters : Prop :=
  (∀ (x : List Byte) (bpp : Nat),
    filt .up x none bpp = filt .none x none bpp ∧ filt .paeth x none bpp = filt .sub x none bpp
    ∧ ∀ i, i < x.length → (filt .average x none bpp).getD i 0
        = x.getD i 0 - BitVec.ofNat 8 ((left x bpp i).toNat / 2))
  ∧ (∀ (x : List Byte) (p : Option (List Byte)) (bpp i : Nat), i < x.length → i < bpp →
    (filt .sub x p bpp).getD i 0 = (filt .none x p bpp).getD i 0
    ∧ (filt .paeth x p bpp).getD i 0 = (filt .up x p bpp).getD i 0)

/-- R88: the score is the exact sum of the absolute values of the signed bytes, and at most 128 a byte. -/
def Obligations.ScoreIsSumOfMagnitudes : Prop :=
  ∀ f : List Byte,
    score f = (f.map fun b => if b.toNat < 128 then b.toNat else 256 - b.toNat).sum ∧ score f ≤ 128 * f.length

/-- R89: the selected kind has the least score, every earlier kind of the declaration order scores more, and
Grayscale below 8 bits forces None. -/
def Obligations.SelectionIsEarliestMinimum : Prop :=
  ∀ (x : List Byte) (p : Option (List Byte)) (bpp : Nat) (gray : Bool) (depth : Nat),
    (gray = true → depth < 8 → select x p bpp gray depth = .none)
    ∧ (¬(gray = true ∧ depth < 8) →
      ∀ j : FilterKind,
        score (filt (select x p bpp gray depth) x p bpp) ≤ score (filt j x p bpp)
        ∧ (j.word.toNat < (select x p bpp gray depth).word.toNat →
            score (filt (select x p bpp gray depth) x p bpp) < score (filt j x p bpp)))

/-! ### Filter unit: commands -/

/-- The row CUR and the previous row a filter command reads, as R80 gives them: `x` is CUR `0 .. len-1`; `p` is
absent while FL_PV = 0 and PREV `0 .. len-1` while FL_PV = 1. -/
def Sys2Proof.Machine.RowsAre (s : State) (len : Nat) (x : List Byte) (p : Option (List Byte)) : Prop :=
  x.length = len ∧ (∀ i, i < len → s.curCell i = x[i]?)
    ∧ ((s.flPv = false ∧ p = none)
      ∨ (s.flPv = true ∧ ∃ row, p = some row ∧ row.length = len ∧ ∀ i, i < len → s.prevCell i = row[i]?))

/-- A cell R80 checks is unwritten: one of CUR `0 .. len-1`, or with FL_PV = 1 one of PREV `0 .. len-1`. -/
def Sys2Proof.Machine.RowMissing (s : State) (len : Nat) : Prop :=
  (∃ i, i < len ∧ s.curCell i = none) ∨ (s.flPv = true ∧ ∃ i, i < len ∧ s.prevCell i = none)

/-- `t` is `s` after a filter command: the row in OUT `0 .. len-1`, the other cells of OUT as before, the kind in
TAG and in the response, and nothing else changed. -/
def Sys2Proof.Machine.RowStored (s t : State) (row : List Byte) (k : FilterKind) : Prop :=
  t = { s with out := t.out, tag := some k, rsp := some { status := .ok, data := k.word } }
    ∧ (∀ i, i < row.length → t.outCell i = row[i]?) ∧ (∀ i, row.length ≤ i → t.outCell i = s.outCell i)

/-- R80: a filter command has its operands exactly when no cell it checks is unwritten, and then they are the two
rows and no others. -/
def Obligations.RowOperandsCheckCells : Prop :=
  ∀ (s : State) (len : Nat),
    (rowOperands len s = none ↔ RowMissing s len)
    ∧ ∀ x p, rowOperands len s = some (x, p) ↔ RowsAre s len x p

/-- R78: FL_CFG writes the three registers and makes every OUT cell and TAG unwritten; CUR and PREV stay; an
illegal length or bpp raises E_OPERAND. -/
def Obligations.FlCfgConfigures : Prop :=
  ∀ (s : State) (len : BitVec 16) (bpp : BitVec 4) (pv : Bool),
    ((1 ≤ len.toNat ∧ len.toNat ≤ s.cfg.rowMax ∧ 1 ≤ bpp.toNat ∧ bpp.toNat ≤ 8) →
      ∃ t, exec (.flCfg len bpp pv) s = .next t
        ∧ t = { s with flLen := some len, flBpp := bpp, flPv := pv, out := t.out, tag := none,
                       rsp := some { status := .ok, data := 0 } }
        ∧ ∀ i, t.outCell i = none)
    ∧ (¬(1 ≤ len.toNat ∧ len.toNat ≤ s.cfg.rowMax ∧ 1 ≤ bpp.toNat ∧ bpp.toNat ≤ 8) →
      exec (.flCfg len bpp pv) s
        = .next { s with fault := true, code := .operand, rsp := some { status := .operand, data := 0 } })

/-- R79: FL_WR writes one cell of the buffer `sel` names, with no FL_CFG needed; an index at or above ROW_MAX
raises E_RANGE. -/
def Obligations.FlWrWritesOneCell : Prop :=
  ∀ (s : State) (idx : BitVec 16) (byte : Byte),
    (idx.toNat < s.cfg.rowMax →
      (∃ t, exec (.flWr .cur idx byte) s = .next t
        ∧ t = { s with cur := t.cur, rsp := some { status := .ok, data := 0 } }
        ∧ t.curCell idx.toNat = some byte ∧ ∀ i, i ≠ idx.toNat → t.curCell i = s.curCell i)
      ∧ (∃ t, exec (.flWr .prev idx byte) s = .next t
        ∧ t = { s with prev := t.prev, rsp := some { status := .ok, data := 0 } }
        ∧ t.prevCell idx.toNat = some byte ∧ ∀ i, i ≠ idx.toNat → t.prevCell i = s.prevCell i))
    ∧ (idx.toNat ≥ s.cfg.rowMax → ∀ sel, exec (.flWr sel idx byte) s
        = .next { s with fault := true, code := .range, rsp := some { status := .range, data := 0 } })

/-- R81: FL_FWD leaves the forward-filtered row in OUT and the kind in TAG; its errors come in the order of R81. -/
def Obligations.FlFwdFiltersRow : Prop :=
  ∀ (s : State) (kind : BitVec 3),
    (s.flLen = none → exec (.flFwd kind) s
      = .next { s with fault := true, code := .notInit, rsp := some { status := .notInit, data := 0 } })
    ∧ (∀ len, s.flLen = some len →
      (4 < kind.toNat → exec (.flFwd kind) s
        = .next { s with fault := true, code := .filterType, rsp := some { status := .filterType, data := 0 } })
      ∧ (kind.toNat ≤ 4 → RowMissing s len.toNat → exec (.flFwd kind) s
        = .next { s with fault := true, code := .unwritten, rsp := some { status := .unwritten, data := 0 } })
      ∧ (∀ k x p, k.word.toNat = kind.toNat → RowsAre s len.toNat x p →
        ∃ t, exec (.flFwd kind) s = .next t ∧ RowStored s t (filt k x p s.flBpp.toNat) k))

/-- R82: FL_INV leaves the unfiltered row in OUT and the kind in TAG; its errors come in the order of R82. -/
def Obligations.FlInvUnfiltersRow : Prop :=
  ∀ (s : State) (kind : BitVec 3),
    (s.flLen = none → exec (.flInv kind) s
      = .next { s with fault := true, code := .notInit, rsp := some { status := .notInit, data := 0 } })
    ∧ (∀ len, s.flLen = some len →
      (4 < kind.toNat → exec (.flInv kind) s
        = .next { s with fault := true, code := .filterType, rsp := some { status := .filterType, data := 0 } })
      ∧ (kind.toNat ≤ 4 → RowMissing s len.toNat → exec (.flInv kind) s
        = .next { s with fault := true, code := .unwritten, rsp := some { status := .unwritten, data := 0 } })
      ∧ (∀ k y p, k.word.toNat = kind.toNat → RowsAre s len.toNat y p →
        ∃ t, exec (.flInv kind) s = .next t ∧ RowStored s t (unfilt k y p s.flBpp.toNat) k))

/-- R92: FL_SEL leaves the forward-filtered row of the selected kind in OUT and the kind in TAG; its errors come
in the order of R92, and a forced None still checks the cells. -/
def Obligations.FlSelFiltersSelected : Prop :=
  ∀ (s : State) (gray : Bool) (depth : BitVec 5),
    (s.flLen = none → exec (.flSel gray depth) s
      = .next { s with fault := true, code := .notInit, rsp := some { status := .notInit, data := 0 } })
    ∧ (∀ len, s.flLen = some len →
      (depth.toNat ∉ [1, 2, 4, 8, 16] → exec (.flSel gray depth) s
        = .next { s with fault := true, code := .bitDepth, rsp := some { status := .bitDepth, data := 0 } })
      ∧ (depth.toNat ∈ [1, 2, 4, 8, 16] → RowMissing s len.toNat → exec (.flSel gray depth) s
        = .next { s with fault := true, code := .unwritten, rsp := some { status := .unwritten, data := 0 } })
      ∧ (∀ x p, depth.toNat ∈ [1, 2, 4, 8, 16] → RowsAre s len.toNat x p →
        ∃ t, exec (.flSel gray depth) s = .next t
          ∧ RowStored s t (filt (select x p s.flBpp.toNat gray depth.toNat) x p s.flBpp.toNat)
              (select x p s.flBpp.toNat gray depth.toNat)))

/-- R83: FL_RDO responds the output byte and writes nothing; its errors come in the order of R83. -/
def Obligations.FlRdoRespondsOutput : Prop :=
  ∀ (s : State) (idx : BitVec 16),
    (s.flLen = none → exec (.flRdo idx) s
      = .next { s with fault := true, code := .notInit, rsp := some { status := .notInit, data := 0 } })
    ∧ (∀ len, s.flLen = some len →
      (idx.toNat ≥ len.toNat → exec (.flRdo idx) s
        = .next { s with fault := true, code := .range, rsp := some { status := .range, data := 0 } })
      ∧ (idx.toNat < len.toNat → s.outCell idx.toNat = none → exec (.flRdo idx) s
        = .next { s with fault := true, code := .unwritten, rsp := some { status := .unwritten, data := 0 } })
      ∧ (∀ b, idx.toNat < len.toNat → s.outCell idx.toNat = some b → exec (.flRdo idx) s
        = .next { s with rsp := some { status := .ok, data := b.setWidth 32 } }))

/-- R84: FL_RDT responds the tag, 0 to 4, and writes nothing; its errors come in the order of R84. The first two
clauses give the numbers of R18 and R48: None 0, Sub 1, Up 2, Average 3 and Paeth 4, as a tag and as a `kind` field,
whose values 5 to 7 name no filter. -/
def Obligations.FlRdtRespondsTag : Prop :=
  [FilterKind.none, .sub, .up, .average, .paeth].map (fun k => k.word.toNat) = [0, 1, 2, 3, 4]
  ∧ (List.range 8).map (fun v => kindOfField (BitVec.ofNat 3 v))
    = [some .none, some .sub, some .up, some .average, some .paeth, none, none, none]
  ∧ ∀ s : State,
    (s.flLen = none → exec .flRdt s
      = .next { s with fault := true, code := .notInit, rsp := some { status := .notInit, data := 0 } })
    ∧ (∀ len, s.flLen = some len →
      (s.tag = none → exec .flRdt s
        = .next { s with fault := true, code := .unwritten, rsp := some { status := .unwritten, data := 0 } })
      ∧ (∀ k, s.tag = some k → k.word.toNat ≤ 4 ∧ exec .flRdt s
        = .next { s with rsp := some { status := .ok, data := k.word } }))

/-- R85: FL_SHIFT copies the source's cells below FL_LEN into PREV and sets FL_PV; PREV cells at and above FL_LEN,
the source, OUT and TAG stay; its errors come in the order of R85. -/
def Obligations.FlShiftMakesPreviousRow : Prop :=
  ∀ (s : State) (src : ShiftSrc),
    let cell := fun i => match src with
      | .cur => s.curCell i
      | .out => s.outCell i
    (s.flLen = none → exec (.flShift src) s
      = .next { s with fault := true, code := .notInit, rsp := some { status := .notInit, data := 0 } })
    ∧ (∀ len, s.flLen = some len →
      ((∃ i, i < len.toNat ∧ cell i = none) → exec (.flShift src) s
        = .next { s with fault := true, code := .unwritten, rsp := some { status := .unwritten, data := 0 } })
      ∧ ((∀ i, i < len.toNat → cell i ≠ none) →
        ∃ t, exec (.flShift src) s = .next t
          ∧ t = { s with prev := t.prev, flPv := true, rsp := some { status := .ok, data := 0 } }
          ∧ (∀ i, i < len.toNat → t.prevCell i = cell i)
          ∧ (∀ i, len.toNat ≤ i → t.prevCell i = s.prevCell i)))

/-- R76 over the commands (R87): if FL_FWD succeeds, and FL_INV of the same kind then succeeds in any state with
the same configuration and, where FL_PV = 1, the same previous row, and with that output as its input, its output is
the first row. The bpp is one FL_CFG accepts (R17, the invariant RegistersLegal). -/
def Obligations.FlInvReconstructsFlFwdRow : Prop :=
  ∀ (s t u v : State) (kind : BitVec 3) (len : BitVec 16) (d e : Word), s.flLen = some len →
    1 ≤ s.flBpp.toNat → s.flBpp.toNat ≤ 8 →
    exec (.flFwd kind) s = .next t → t.rsp = some { status := .ok, data := d } →
    u.flLen = s.flLen → u.flBpp = s.flBpp → u.flPv = s.flPv →
    (s.flPv = true → ∀ i, i < len.toNat → u.prevCell i = s.prevCell i) →
    (∀ i, i < len.toNat → u.curCell i = t.outCell i) →
    exec (.flInv kind) u = .next v → v.rsp = some { status := .ok, data := e } →
    ∀ i, i < len.toNat → v.outCell i = s.curCell i

/-- R91, which the spec marks as derived: FL_SEL is a function of the rows, the configuration and its operands: two states that agree on those
give the same response, the same TAG and the same output row, whatever else they hold. -/
def Obligations.FlSelDependsOnRowsOnly : Prop :=
  ∀ (s s' t t' : State) (gray : Bool) (depth : BitVec 5) (len : BitVec 16) (d : Word),
    s.flLen = some len → s'.flLen = some len → s.flBpp = s'.flBpp → s.flPv = s'.flPv →
    (∀ i, i < len.toNat → s.curCell i = s'.curCell i) →
    (s.flPv = true → ∀ i, i < len.toNat → s.prevCell i = s'.prevCell i) →
    exec (.flSel gray depth) s = .next t → exec (.flSel gray depth) s' = .next t' →
    t.rsp = some { status := .ok, data := d } →
    t'.rsp = t.rsp ∧ t'.tag = t.tag ∧ ∀ i, i < len.toNat → t'.outCell i = t.outCell i

/-! ### Whole-machine rules -/

/-- R98: a command either responds OK and leaves STATUS alone, or raises one of the codes 1 to 9 and changes
nothing but STATUS and the response. -/
def Obligations.ErrorsChangeOnlyStatus : Prop :=
  ∀ (i : Instr) (s : State), ∃ t, exec i s = .next t ∧
    ((∃ d, t.rsp = some { status := .ok, data := d } ∧ t.fault = s.fault ∧ t.code = s.code)
    ∨ (∃ e : Status, 1 ≤ e.code.toNat ∧ e.code.toNat ≤ 9
        ∧ t = { s with fault := true, code := e, rsp := some { status := e, data := 0 } }))

/-- R102 and R119: from a faulted state, any number of steps with no reset among the inputs changes nothing but
the port and the response; the first code is kept. -/
def Obligations.FaultStateLeftOnlyByReset : Prop :=
  ∀ (n : Nat) (s : State), s.fault = true → (∀ p, HostInput.reset p ∉ s.port) →
    ∃ t, Sys2Proof.core.run n s = .next t ∧ t = { s with port := t.port, rsp := t.rsp }

/-- R2: no command of one functional unit writes the state of another, and what it does and responds depends on
its own unit's state alone. -/
def Obligations.UnitsAreIndependent : Prop :=
  ∀ (i : Instr) (s s' t t' : State), s.cfg = s'.cfg → exec i s = .next t → exec i s' = .next t' →
    (i.op ∈ [Op.crcInit, .crcByte, .crcFinal, .crcTbl] →
      t = { s with crcAcc := t.crcAcc, fault := t.fault, code := t.code, rsp := t.rsp }
      ∧ (s.crcAcc = s'.crcAcc → t.rsp = t'.rsp ∧ t.crcAcc = t'.crcAcc))
    ∧ (i.op ∈ [Op.pkInit, .pkPut, .pkRdb] →
      t = { s with pkCap := t.pkCap, pkBuf := t.pkBuf, fault := t.fault, code := t.code, rsp := t.rsp }
      ∧ (s.pkCap = s'.pkCap → s.pkBuf = s'.pkBuf →
          t.rsp = t'.rsp ∧ t.pkCap = t'.pkCap ∧ t.pkBuf = t'.pkBuf))
    ∧ (i.op ∈ [Op.flCfg, .flWr, .flFwd, .flSel, .flInv, .flRdo, .flRdt, .flShift] →
      t = { s with flLen := t.flLen, flBpp := t.flBpp, flPv := t.flPv, cur := t.cur, prev := t.prev,
                   out := t.out, tag := t.tag, fault := t.fault, code := t.code, rsp := t.rsp }
      ∧ (s.flLen = s'.flLen → s.flBpp = s'.flBpp → s.flPv = s'.flPv → s.cur = s'.cur → s.prev = s'.prev →
          s.out = s'.out → s.tag = s'.tag →
          t.rsp = t'.rsp ∧ t.flLen = t'.flLen ∧ t.flBpp = t'.flBpp ∧ t.flPv = t'.flPv ∧ t.cur = t'.cur
            ∧ t.prev = t'.prev ∧ t.out = t'.out ∧ t.tag = t'.tag))

/-- The "written by" column of 10_state.md section 1, over all commands: each element is changed by the commands
named and by no other. So FL_PV stays until FL_CFG or FL_SHIFT (R116), CUR and PREV cells stay until written
(R117), OUT and TAG stay until a filter command or FL_CFG (R114). -/
def Obligations.ElementsWrittenByTheirCommands : Prop :=
  ∀ (i : Instr) (s t : State), exec i s = .next t →
    (t.crcAcc ≠ s.crcAcc → i.op ∈ [Op.crcInit, .crcByte])
    ∧ (t.pkCap ≠ s.pkCap → i.op ∈ [Op.pkInit])
    ∧ (t.pkBuf ≠ s.pkBuf → i.op ∈ [Op.pkInit, .pkPut])
    ∧ (t.flLen ≠ s.flLen → i.op ∈ [Op.flCfg])
    ∧ (t.flBpp ≠ s.flBpp → i.op ∈ [Op.flCfg])
    ∧ (t.flPv ≠ s.flPv → i.op ∈ [Op.flCfg, .flShift])
    ∧ (t.cur ≠ s.cur → i.op ∈ [Op.flWr])
    ∧ (t.prev ≠ s.prev → i.op ∈ [Op.flWr, .flShift])
    ∧ (t.out ≠ s.out → i.op ∈ [Op.flFwd, .flInv, .flSel, .flCfg])
    ∧ (t.tag ≠ s.tag → i.op ∈ [Op.flFwd, .flInv, .flSel, .flCfg])
    ∧ t.cfg = s.cfg ∧ t.port = s.port

/-- R34: a read that succeeds writes no state, and repeating it gives the same response. -/
def Obligations.ReadsHaveNoSideEffects : Prop :=
  ∀ (i : Instr) (s t : State) (d : Word),
    i.op ∈ [Op.nop, .stRd, .crcFinal, .crcTbl, .pkRdb, .flRdo, .flRdt] →
    exec i s = .next t → t.rsp = some { status := .ok, data := d } →
    t = { s with rsp := t.rsp } ∧ exec i t = .next t

/-- R34: repeating an idempotent command gives the same state. The buffers are in their canonical form, which
`StepKeepsInvariant` says every step keeps. -/
def Obligations.RepeatedCommandsAreIdempotent : Prop :=
  ∀ (i : Instr) (s t : State),
    i.op ∈ [Op.crcInit, .pkInit, .flWr, .flCfg, .flFwd, .flInv, .flSel, .flShift] →
    s.BuffersCanonical → exec i s = .next t → exec i t = .next t

/-- R25: FL_BPP is "never read while FL_LEN is unwritten": another value of it changes no response and no other
element. So the model's reset value of it (log 3) shows nowhere. -/
def Obligations.FlBppNotReadBeforeFlCfg : Prop :=
  ∀ (i : Instr) (s t : State) (b : BitVec 4), s.flLen = none → exec i s = .next t →
    ∃ b', exec i { s with flBpp := b } = .next { t with flBpp := b' } ∧ (t.flLen ≠ none → b' = t.flBpp)

/-- R22 and R25: PK_BUF bytes at or above `ceil8(PK_CAP)`, and all of them while PK_CAP is unwritten, are never
read: two states that differ only there give the same response and again differ only there. So the model's choice
of them (log 4, log 16) shows nowhere. -/
def Obligations.PkBytesPastCapacityNotRead : Prop :=
  ∀ (i : Instr) (s t : State) (m : Memory),
    (∀ cap, s.pkCap = some cap → ∀ j, j < (cap.toNat + 7) / 8 → s.pkByte j = pkRead m j) →
    exec i s = .next t →
    ∃ m', exec i { s with pkBuf := m } = .next { t with pkBuf := m' }
      ∧ ∀ cap, t.pkCap = some cap → ∀ j, j < (cap.toNat + 7) / 8 → t.pkByte j = pkRead m' j

/-! ### Invariants -/

/-- The state after reset meets the invariant. -/
def Obligations.ResetMeetsInvariant : Prop := State.reset.Inv

/-- Every step keeps the invariant, from every state that meets it: STATUS is consistent (R15), the buffers keep
their canonical form and their bounds (R22, R23), the configuration registers stay legal (R17, R66), the bits past
the capacity read 0 (R68), and OUT holds a whole row exactly while TAG is written (R84, R114). -/
def Obligations.StepKeepsInvariant : Prop := ∀ s t : State, s.Inv → step s = .next t → t.Inv

/-! ### The assembler -/

/-- The symbols R54 accepts in a field, with the numbers of R48. -/
def Sys2Proof.r54Symbols : Field → List (Symbol × Nat)
  | .sel => [(.CUR, 0), (.PREV, 1)]
  | .src => [(.CUR, 0), (.OUT, 1)]
  | .kind => [(.NONE, 0), (.SUB, 1), (.UP, 2), (.AVG, 3), (.PAETH, 4)]
  | .pv => [(.NOPREV, 0), (.HASPREV, 1)]
  | _ => []

/-- What an operand stands for in the field `f`, whose bits are `place.1` down to `place.2`: a number that fits the
bits stands for itself, and a symbol of the field for its number. -/
def Sys2Proof.AsmOperand.standsFor (x : AsmOperand) (f : Field) (place : Nat × Nat) (v : Nat) : Prop :=
  match x with
  | .num n => v = n ∧ n < 2 ^ (place.1 + 1 - place.2)
  | .sym s => (s, v) ∈ r54Symbols f

/-- The operand list `os` of the mnemonic `o` stands for the values `vs`: there are as many operands as the format
has fields (R46), "in the order of the format's fields from high bits to low", and each stands for its value. -/
def Sys2Proof.Op.operandsStandFor (o : Op) (os : List AsmOperand) (vs : List Nat) : Prop :=
  os.length = (r46Fields o.format).length ∧ vs.length = (r46Fields o.format).length
    ∧ ∀ (k : Nat) (f : Field) (place : Nat × Nat) (x : AsmOperand) (v : Nat), o.fields[k]? = some f →
        (r46Fields o.format)[k]? = some place → os[k]? = some x → vs[k]? = some v → x.standsFor f place v

/-- R54, for every mnemonic and every operand list: the assembler answers a command exactly when the operands stand
for values that fit their fields, and its word is then the opcode with each value in its field; every other line is
refused. -/
def Obligations.AssemblerRefusesMisfits : Prop :=
  ∀ (o : Op) (os : List AsmOperand),
    ((∃ i, assemble ⟨o, os⟩ = some i) ↔ ∃ vs, o.operandsStandFor os vs)
    ∧ ∀ i vs, assemble ⟨o, os⟩ = some i → o.operandsStandFor os vs →
        i.op = o ∧ (encode i).toNat
          = o.opc.toNat * 2 ^ 56 + ((r46Fields o.format).zipWith (fun place v => v * 2 ^ place.2) vs).sum

/-- R55: `CRC32 b0, ...` expands to the commands of the CRC of its bytes. -/
def Obligations.Crc32ExpandsToCommands : Prop :=
  ∀ bytes : List Byte, (Pseudo.crc32 (bytes.map BitVec.toNat)).expand.map assemble
    = (crc32Commands bytes).map some

/-- R55: the other four pseudo-instructions expand, line by line, to the commands of the table; a line whose operand
does not fit its field is refused (R54). The last clause says that the chain of `PkSamplesLandInOrder` is what
PK_SAMPLES expands to. -/
def Obligations.PseudoInstructionsExpand : Prop :=
  (∀ (sel : RowSel) (i : Nat) (bytes : List Nat),
    (Pseudo.flLoad (.sym (if sel = .prev then .PREV else .CUR)) i bytes).expand.map assemble
      = bytes.mapIdx fun j b => if i + j < 2 ^ 16 ∧ b < 2 ^ 8
          then some (.flWr sel (BitVec.ofNat 16 (i + j)) (BitVec.ofNat 8 b)) else none)
  ∧ (∀ k : Nat, (Pseudo.flRead k).expand.map assemble
      = some .flRdt :: (List.range k).map fun j => if j < 2 ^ 16 then some (.flRdo (BitVec.ofNat 16 j)) else none)
  ∧ (∀ (off n : Nat) (vals : List Nat), (Pseudo.pkSamples off n vals).expand.map assemble
      = vals.mapIdx fun j v => if off + j * n < 2 ^ 32 ∧ v < 2 ^ 16 ∧ n < 2 ^ 5
          then some (.pkPut (BitVec.ofNat 32 (off + j * n)) (BitVec.ofNat 16 v) (BitVec.ofNat 5 n)) else none)
  ∧ (∀ (r rowBytes n : Nat) (vals : List Nat), (Pseudo.pkRow r rowBytes n vals).expand.map assemble
      = vals.mapIdx fun j v => if 8 * rowBytes * r + j * n < 2 ^ 32 ∧ v < 2 ^ 16 ∧ n < 2 ^ 5
          then some (.pkPut (BitVec.ofNat 32 (8 * rowBytes * r + j * n)) (BitVec.ofNat 16 v) (BitVec.ofNat 5 n))
          else none)
  ∧ ∀ (off : Nat) (n : BitVec 5) (vals : List (BitVec 16)), off + vals.length * n.toNat < 2 ^ 32 →
      (Pseudo.pkSamples off n.toNat (vals.map BitVec.toNat)).expand.map assemble
        = (vals.mapIdx fun j v => .pkPut (BitVec.ofNat 32 (off + j * n.toNat)) v n).map some
end

