-- ==== Sys2Proof/Laws/Asm.lean ====
section
/-! SUPPORT. What the parts of the assembler answer (30_encoding.md R54, R55). -/

namespace Sys2Proof

/-- A number has a value in a field exactly when it fits. -/
@[simp] theorem AsmOperand.value_num (f : Field) (n : Nat) :
    (AsmOperand.num n).value f = if n < 2 ^ f.width then some n else none := rfl

/-- A symbol has the value the field gives it. -/
@[simp] theorem AsmOperand.value_sym (f : Field) (s : Symbol) : (AsmOperand.sym s).value f = f.symbol s := rfl

/-- The operands fit exactly when there are as many as fields and each has a value in its own field. -/
theorem operandsFit_iff (fs : List Field) (os : List AsmOperand) :
    operandsFit fs os = true ↔
      os.length = fs.length ∧
        ∀ (k : Nat) (f : Field) (o : AsmOperand), fs[k]? = some f → os[k]? = some o → (o.value f).isSome = true := by
  induction fs generalizing os with
  | nil => cases os <;> simp [operandsFit]
  | cons f fs ih =>
    cases os with
    | nil => simp [operandsFit]
    | cons o os =>
      simp only [operandsFit, Bool.and_eq_true, ih, List.length_cons, Nat.add_right_cancel_iff]
      constructor
      · rintro ⟨h0, hl, h⟩
        refine ⟨hl, fun k f' o' hf ho => ?_⟩
        cases k with
        | zero => simp only [List.getElem?_cons_zero, Option.some.injEq] at hf ho; subst hf ho; exact h0
        | succ k => exact h k f' o' (by simpa using hf) (by simpa using ho)
      · rintro ⟨hl, h⟩
        exact ⟨h 0 f o rfl rfl, hl, fun k f' o' hf ho => h (k + 1) f' o' (by simpa using hf) (by simpa using ho)⟩

/-- The assembler answers a line exactly when it is well-formed, and then with its operand values (R54). -/
theorem assemble_eq_some (l : AsmLine) (i : Instr) :
    assemble l = some i ↔
      l.wellFormed = true ∧ i = buildInstr l.op (operandValues l.op.fields l.operands) := by
  simp only [assemble]
  split
  · next h => simp only [h, true_and, Option.some.injEq]; exact eq_comm
  · next h => simp [h]

/-- The command built is one of the operation of the line. -/
@[simp] theorem buildInstr_op (o : Op) (vs : List Nat) : (buildInstr o vs).op = o := by cases o <;> rfl

/-- A function of the lines of a value list, one for each place. -/
theorem map_eachLine {β : Type} (g : AsmLine → β) (f : Nat → Nat → AsmLine) (k : Nat) (vs : List Nat) :
    (eachLine f k vs).map g = vs.mapIdx fun j v => g (f (k + j) v) := by
  induction vs generalizing k with
  | nil => rfl
  | cons v vs ih => simp [eachLine, ih, List.mapIdx_cons, Nat.add_comm, Nat.add_left_comm]

end Sys2Proof
end

