-- ==== Sys2Proof/Laws/Decode.lean ====
section
/-! SUPPORT. What the decoder's parts answer. -/

namespace Sys2Proof

/-- Each operation is found by its own opcode (R49). -/
@[simp] theorem opOf_opc (o : Op) : opOf o.opc = some o := by cases o <;> decide

/-- The opcode search answers an operation only by its own opcode. -/
theorem opOf_eq_some (opc : BitVec 8) (o : Op) : opOf opc = some o ↔ opc = o.opc := by
  constructor
  · intro h
    have := List.find?_some h
    exact (by simpa using this : o.opc = opc).symm
  · rintro rfl; exact opOf_opc o

/-- `decode` answers a command exactly when the opcode is assigned and no reserved bit is set (R52). -/
theorem decode_eq_ok (w : Cmd) (i : Instr) :
    decode w = .ok i ↔
      ∃ o, cmdField w 56 8 = o.opc ∧ w &&& reservedMask o.format = 0 ∧ i = readOperands o w := by
  simp only [decode]
  constructor
  · intro h
    split at h
    · cases h
    · next o ho =>
      split at h
      · next hr => cases h; exact ⟨o, (opOf_eq_some _ _).mp ho, hr, rfl⟩
      · cases h
  · rintro ⟨o, ho, hr, rfl⟩
    rw [ho, opOf_opc]
    simp [hr]

/-- The operands read are those of the operation asked for. -/
@[simp] theorem readOperands_op (o : Op) (w : Cmd) : (readOperands o w).op = o := by cases o <;> rfl

end Sys2Proof
end

