-- ==== Sys2Proof/Laws/Filter.lean ====
section
/-! SUPPORT. The row transforms and the selection: lengths and what stands at each index. -/

namespace Sys2Proof.Machine

@[simp] theorem filt_length (k : FilterKind) (x : List Byte) (p : Option (List Byte)) (bpp : Nat) :
    (filt k x p bpp).length = x.length := by simp [filt]

/-- The byte at index `i` of a filtered row (R74). -/
theorem filt_getElem? (k : FilterKind) (x : List Byte) (p : Option (List Byte)) (bpp i : Nat) (h : i < x.length) :
    (filt k x p bpp)[i]? = some (x.getD i 0 - pred k (left x bpp i) (up p i) (upperLeft p bpp i)) := by
  simp [filt, h]

@[simp] theorem unfiltFrom_length (k : FilterKind) (p : Option (List Byte)) (bpp : Nat) (x ys : List Byte) :
    (unfiltFrom k p bpp x ys).length = x.length + ys.length := by
  induction ys generalizing x with
  | nil => simp [unfiltFrom]
  | cons y ys ih => simp [unfiltFrom, ih]; omega

@[simp] theorem unfilt_length (k : FilterKind) (y : List Byte) (p : Option (List Byte)) (bpp : Nat) :
    (unfilt k y p bpp).length = y.length := by simp [unfilt]

/-- The left neighbour at the end of a prefix is the one in the whole row. -/
theorem left_append (x z : List Byte) (bpp : Nat) (hb : 1 ≤ bpp) :
    left (x ++ z) bpp x.length = left x bpp x.length := by
  simp only [left]
  split
  · next h =>
    by_cases h0 : x.length - bpp < x.length
    · rw [List.getD_eq_getElem?_getD, List.getD_eq_getElem?_getD, List.getElem?_append_left h0]
    · have : x = [] := List.length_eq_zero_iff.mp (by omega)
      subst this
      simp at h
      omega
  · rfl

/-- `kindOfField` answers a kind exactly for the fields 0 to 4 (R48). -/
theorem kindOfField_isSome (k : BitVec 3) : (kindOfField k).isSome = true ↔ k.toNat ≤ 4 := by
  revert k; decide

/-- The kind's number is the field it came from. -/
theorem kindOfField_word (k : BitVec 3) (f : FilterKind) (h : kindOfField k = some f) :
    f.word = k.setWidth 32 := by
  revert h; revert k; cases f <;> decide

end Sys2Proof.Machine
end

