-- ==== Sys2Proof/Laws/Memory.lean ====
section
/-! SUPPORT. The laws of the buffers: a read after a write, and every operation keeps the canonical form. -/

namespace Sys2Proof.Machine.Memory

/-! ### What one index reads as after an operation -/

@[simp] theorem find_nil (a : Nat) : Memory.find [] a = none := rfl

theorem find_insert (m : Memory) (a b : Nat) (v : Byte) :
    (m.insert a v).find b = if a = b then some v else m.find b := by
  induction m with
  | nil => simp [insert, find]
  | cons c m ih =>
    simp only [insert]
    split
    · rfl
    · split
      · next h => subst h; simp only [find]; split <;> rfl
      · simp only [find, ih]
        split <;> split <;> simp_all

theorem find_filter (m : Memory) (q : Nat → Bool) (b : Nat) :
    Memory.find (m.filter fun c => q c.1) b = if q b then m.find b else none := by
  induction m with
  | nil => simp
  | cons c m ih =>
    simp only [List.filter_cons, find]
    split
    · simp only [find, ih]; split <;> simp_all
    · next hq =>
      rw [ih]
      split
      · next hb =>
        have : c.1 ≠ b := fun h => by simp_all
        simp [this]
      · rfl

theorem find_erase (m : Memory) (a b : Nat) : (m.erase a).find b = if a = b then none else m.find b := by
  rw [erase, find_filter m (fun i => decide (i ≠ a)) b]
  by_cases h : a = b <;> simp [h, eq_comm]

/-- A write is seen at its own index and nowhere else. -/
theorem read_write (u : Option Byte) (m : Memory) (a b : Nat) (v : Byte) :
    (m.write u a v).read u b = if a = b then some v else m.read u b := by
  simp only [write, read]
  split
  · next h => rw [find_erase]; split <;> simp [h]
  · rw [find_insert]; split <;> simp

@[simp] theorem read_write_same (u : Option Byte) (m : Memory) (a : Nat) (v : Byte) :
    (m.write u a v).read u a = some v := by simp [read_write]

theorem read_write_other (u : Option Byte) (m : Memory) (a b : Nat) (v : Byte) (h : a ≠ b) :
    (m.write u a v).read u b = m.read u b := by simp [read_write, h]

/-- A cleared index reads as an unlisted one. -/
theorem read_clearBelow (u : Option Byte) (m : Memory) (n b : Nat) :
    (m.clearBelow n).read u b = if b < n then u else m.read u b := by
  rw [read, clearBelow, find_filter m (fun i => decide (n ≤ i)) b, read]
  by_cases h : b < n
  · simp [h, Nat.not_le.mpr h]
  · simp [h, Nat.le_of_not_lt h]

/-- After a row is written from `a` on, its bytes stand there and every other index is as before. -/
theorem read_writeFrom (u : Option Byte) (bs : List Byte) (m : Memory) (a b : Nat) :
    (m.writeFrom u a bs).read u b =
      if a ≤ b ∧ b < a + bs.length then bs[b - a]? else m.read u b := by
  induction bs generalizing m a with
  | nil => simp [writeFrom]
  | cons x bs ih =>
    rw [writeFrom, ih, read_write]
    simp only [List.length_cons]
    by_cases h1 : a + 1 ≤ b ∧ b < a + 1 + bs.length
    · have h2 : a ≤ b ∧ b < a + (bs.length + 1) := by omega
      have h3 : b - a = (b - (a + 1)) + 1 := by omega
      simp [h1, h2, h3]
    · by_cases h2 : a = b
      · subst h2; simp
      · have h3 : ¬(a ≤ b ∧ b < a + (bs.length + 1)) := by omega
        rw [if_neg h1, if_neg h2, if_neg h3]

/-- `readFrom` answers a row exactly when every cell of it is written, and then it is those cells. -/
theorem readFrom_eq_some (u : Option Byte) (m : Memory) (a n : Nat) (row : List Byte) :
    m.readFrom u a n = some row ↔ row.length = n ∧ ∀ i < n, m.read u (a + i) = row[i]? := by
  induction n generalizing a row with
  | zero =>
    simp only [readFrom, Option.some.injEq]
    constructor
    · rintro rfl; simp
    · rintro ⟨h, -⟩; exact (List.length_eq_zero_iff.mp h).symm
  | succ n ih =>
    simp only [readFrom]
    constructor
    · intro h
      split at h
      · next b bs h1 h2 =>
        obtain rfl := Option.some.inj h
        obtain ⟨hl, hc⟩ := (ih _ _).mp h2
        refine ⟨by simp [hl], fun i hi => ?_⟩
        cases i with
        | zero => simpa using h1
        | succ i => simpa [Nat.add_assoc, Nat.add_comm 1 i] using hc i (by omega)
      · simp at h
    · rintro ⟨hl, hc⟩
      cases row with
      | nil => simp at hl
      | cons b bs =>
        have h1 : m.read u a = some b := by simpa using hc 0 (by omega)
        have h2 : m.readFrom u (a + 1) n = some bs := by
          refine (ih _ _).mpr ⟨by simpa using hl, fun i hi => ?_⟩
          simpa [Nat.add_assoc, Nat.add_comm 1 i] using hc (i + 1) (by omega)
        simp [h1, h2]

/-- `readFrom` answers nothing exactly when some cell of the row is unwritten. -/
theorem readFrom_eq_none (u : Option Byte) (m : Memory) (a n : Nat) :
    m.readFrom u a n = none ↔ ∃ i < n, m.read u (a + i) = none := by
  induction n generalizing a with
  | zero => simp [readFrom]
  | succ n ih =>
    simp only [readFrom]
    constructor
    · intro h
      cases h1 : m.read u a with
      | none => exact ⟨0, by omega, by simpa using h1⟩
      | some b =>
        cases h2 : m.readFrom u (a + 1) n with
        | none =>
          obtain ⟨i, hi, hn⟩ := (ih _).mp h2
          exact ⟨i + 1, by omega, by simpa [Nat.add_assoc, Nat.add_comm 1 i] using hn⟩
        | some bs => simp [h1, h2] at h
    · rintro ⟨i, hi, hn⟩
      cases i with
      | zero => simp at hn; simp [hn]
      | succ i =>
        have h2 : m.readFrom u (a + 1) n = none :=
          (ih _).mpr ⟨i, by omega, by simpa [Nat.add_assoc, Nat.add_comm 1 i] using hn⟩
        rw [h2]; split <;> simp_all

/-! ### The canonical form -/

theorem insert_all (m : Memory) (a : Nat) (v : Byte) (q : Host.Cell → Bool) (h : m.all q = true)
    (hv : q (a, v) = true) : (m.insert a v).all q = true := by
  induction m with
  | nil => simpa [insert] using hv
  | cons c m ih =>
    simp only [List.all_cons, Bool.and_eq_true] at h
    simp only [insert]
    split
    · simp [hv, h.1, h.2]
    · split
      · simp [hv, h.2]
      · simp only [List.all_cons, Bool.and_eq_true]; exact ⟨h.1, ih h.2⟩

theorem insert_rising (m : Memory) (a : Nat) (v : Byte) (h : m.rising = true) :
    (m.insert a v).rising = true := by
  induction m with
  | nil => simp [insert, rising]
  | cons c m ih =>
    simp only [rising, Bool.and_eq_true] at h
    simp only [insert]
    split
    · next hlt =>
      have : ∀ d ∈ m, a < d.1 := fun d hd => by
        have := List.all_eq_true.mp h.1 d hd
        simp at this; omega
      simp only [rising, List.all_cons, Bool.and_eq_true, decide_eq_true_eq, List.all_eq_true]
      exact ⟨⟨hlt, this⟩, by simpa using h.1, h.2⟩
    · split
      · next heq => simp [rising, heq, h.1, h.2]
      · next h1 h2 =>
        simp only [rising, Bool.and_eq_true]
        exact ⟨insert_all m a v _ h.1 (by simp; omega), ih h.2⟩

theorem filter_rising (m : Memory) (q : Host.Cell → Bool) (h : m.rising = true) :
    Memory.rising (m.filter q) = true := by
  induction m with
  | nil => rfl
  | cons c m ih =>
    simp only [rising, Bool.and_eq_true] at h
    simp only [List.filter_cons]
    split
    · simp only [rising, Bool.and_eq_true]
      refine ⟨?_, ih h.2⟩
      simp only [List.all_eq_true, List.mem_filter] at h ⊢
      exact fun d hd => h.1 d hd.1
    · exact ih h.2

theorem filter_all (m : Memory) (q r : Host.Cell → Bool) (h : m.all r = true) :
    (m.filter q).all r = true := by
  simp only [List.all_eq_true, List.mem_filter] at h ⊢
  exact fun d hd => h d hd.1

@[simp] theorem wf_nil (u : Option Byte) : Memory.wf u [] = true := rfl

theorem write_wf (u : Option Byte) (m : Memory) (a : Nat) (v : Byte) (h : m.wf u = true) :
    (m.write u a v).wf u = true := by
  simp only [wf, Bool.and_eq_true] at h ⊢
  simp only [write]
  split
  · exact ⟨filter_rising m _ h.1, filter_all m _ _ h.2⟩
  · next hne => exact ⟨insert_rising m a v h.1, insert_all m a v _ h.2 (by simpa using hne)⟩

theorem clearBelow_wf (u : Option Byte) (m : Memory) (n : Nat) (h : m.wf u = true) :
    (m.clearBelow n).wf u = true := by
  simp only [wf, Bool.and_eq_true] at h ⊢
  exact ⟨filter_rising m _ h.1, filter_all m _ _ h.2⟩

theorem writeFrom_wf (u : Option Byte) (bs : List Byte) (m : Memory) (a : Nat) (h : m.wf u = true) :
    (m.writeFrom u a bs).wf u = true := by
  induction bs generalizing m a with
  | nil => exact h
  | cons b bs ih => exact ih _ _ (write_wf u m a b h)

theorem find_of_lt (m : Memory) (a : Nat) (h : ∀ d ∈ m, a < d.1) : m.find a = none := by
  induction m with
  | nil => rfl
  | cons c m ih =>
    have : c.1 ≠ a := by have := h c (by simp); omega
    simp only [find, this, if_false]
    exact ih fun d hd => h d (by simp [hd])

/-- Two buffers in canonical form that read the same everywhere are the same list. -/
theorem eq_of_read_eq (u : Option Byte) (m m' : Memory) (h : m.wf u = true) (h' : m'.wf u = true)
    (hr : ∀ i, m.read u i = m'.read u i) : m = m' := by
  have hfind : ∀ i, m.find i = m'.find i := by
    have key : ∀ (m : Memory), m.wf u = true → ∀ i v, m.find i = some v → u ≠ some v := by
      intro m hm
      induction m with
      | nil => simp
      | cons c m ih =>
        simp only [wf, rising, List.all_cons, Bool.and_eq_true] at hm ih
        intro i v hv
        simp only [find] at hv
        split at hv
        · obtain rfl := Option.some.inj hv
          simpa using hm.2.1
        · exact ih ⟨hm.1.2, hm.2.2⟩ i v hv
    intro i
    have hi := hr i
    simp only [read] at hi
    cases h1 : m.find i with
    | none =>
      cases h2 : m'.find i with
      | none => rfl
      | some w => rw [h1, h2] at hi; simp at hi; exact absurd hi (key m' h' i w h2)
    | some v =>
      cases h2 : m'.find i with
      | none => rw [h1, h2] at hi; simp at hi; exact absurd hi.symm (key m h i v h1)
      | some w => rw [h1, h2] at hi; simpa using hi
  simp only [wf, Bool.and_eq_true] at h h'
  replace h := h.1
  replace h' := h'.1
  clear hr
  induction m generalizing m' with
  | nil =>
    cases m' with
    | nil => rfl
    | cons c' m' => simpa [find] using hfind c'.1
  | cons c m ih =>
    cases m' with
    | nil => simpa [find] using hfind c.1
    | cons c' m' =>
      simp only [rising, Bool.and_eq_true] at h h'
      have hlt : ∀ d ∈ m, c.1 < d.1 := fun d hd => by simpa using List.all_eq_true.mp h.1 d hd
      have hlt' : ∀ d ∈ m', c'.1 < d.1 := fun d hd => by simpa using List.all_eq_true.mp h'.1 d hd
      have hkey : c.1 = c'.1 := by
        have h1 := hfind c.1
        have h2 := hfind c'.1
        simp only [find, if_true] at h1 h2
        by_contra hne
        rcases Nat.lt_or_gt_of_ne hne with hl | hl
        · have := find_of_lt m' c.1 fun d hd => Nat.lt_trans hl (hlt' d hd)
          simp [Ne.symm hne, this] at h1
        · have := find_of_lt m c'.1 fun d hd => Nat.lt_trans hl (hlt d hd)
          simp [hne, this] at h2
      have hval : c.2 = c'.2 := by
        have h1 := hfind c.1
        simpa [find, hkey] using h1
      have hc : c = c' := Prod.ext hkey hval
      subst hc
      congr 1
      refine ih m' (fun i => ?_) h.2 h'.2
      by_cases hi : c.1 = i
      · subst hi
        rw [find_of_lt m c.1 hlt, find_of_lt m' c.1 hlt']
      · simpa [find, hi] using hfind i

/-! ### Bounds -/

@[simp] theorem below_nil (n : Nat) : Memory.below n [] = true := rfl

theorem write_below (u : Option Byte) (m : Memory) (a n : Nat) (v : Byte) (h : m.below n = true) (ha : a < n) :
    (m.write u a v).below n = true := by
  simp only [write]
  split
  · exact filter_all m _ _ h
  · exact insert_all m a v _ h (by simpa using ha)

theorem clearBelow_below (m : Memory) (k n : Nat) (h : m.below n = true) : (m.clearBelow k).below n = true :=
  filter_all m _ _ h

theorem writeFrom_below (u : Option Byte) (bs : List Byte) (m : Memory) (a n : Nat) (h : m.below n = true)
    (ha : a + bs.length ≤ n) : (m.writeFrom u a bs).below n = true := by
  induction bs generalizing m a with
  | nil => exact h
  | cons b bs ih =>
    simp only [List.length_cons] at ha
    exact ih _ _ (write_below u m a n b h (by omega)) (by omega)

end Sys2Proof.Machine.Memory
end

