-- ==== Sys2Proof/Laws/State.lean ====
section
/-! SUPPORT. What each update of a state element writes and what it leaves alone, one lemma per element and
update, so that no proof unfolds a record update. -/

namespace Sys2Proof.Machine.State

section
variable (s : State) (f : Bool) (c : Status)
@[simp] theorem withStatus_cfg : (s.withStatus f c).cfg = s.cfg := rfl
@[simp] theorem withStatus_fault : (s.withStatus f c).fault = f := rfl
@[simp] theorem withStatus_code : (s.withStatus f c).code = c := rfl
@[simp] theorem withStatus_crcAcc : (s.withStatus f c).crcAcc = s.crcAcc := rfl
@[simp] theorem withStatus_pkCap : (s.withStatus f c).pkCap = s.pkCap := rfl
@[simp] theorem withStatus_pkBuf : (s.withStatus f c).pkBuf = s.pkBuf := rfl
@[simp] theorem withStatus_flLen : (s.withStatus f c).flLen = s.flLen := rfl
@[simp] theorem withStatus_flBpp : (s.withStatus f c).flBpp = s.flBpp := rfl
@[simp] theorem withStatus_flPv : (s.withStatus f c).flPv = s.flPv := rfl
@[simp] theorem withStatus_cur : (s.withStatus f c).cur = s.cur := rfl
@[simp] theorem withStatus_prev : (s.withStatus f c).prev = s.prev := rfl
@[simp] theorem withStatus_out : (s.withStatus f c).out = s.out := rfl
@[simp] theorem withStatus_tag : (s.withStatus f c).tag = s.tag := rfl
@[simp] theorem withStatus_port : (s.withStatus f c).port = s.port := rfl
@[simp] theorem withStatus_rsp : (s.withStatus f c).rsp = s.rsp := rfl
end

section
variable (s : State) (v : BitVec 32)
@[simp] theorem withCrcAcc_cfg : (s.withCrcAcc v).cfg = s.cfg := rfl
@[simp] theorem withCrcAcc_fault : (s.withCrcAcc v).fault = s.fault := rfl
@[simp] theorem withCrcAcc_code : (s.withCrcAcc v).code = s.code := rfl
@[simp] theorem withCrcAcc_crcAcc : (s.withCrcAcc v).crcAcc = some v := rfl
@[simp] theorem withCrcAcc_pkCap : (s.withCrcAcc v).pkCap = s.pkCap := rfl
@[simp] theorem withCrcAcc_pkBuf : (s.withCrcAcc v).pkBuf = s.pkBuf := rfl
@[simp] theorem withCrcAcc_flLen : (s.withCrcAcc v).flLen = s.flLen := rfl
@[simp] theorem withCrcAcc_flBpp : (s.withCrcAcc v).flBpp = s.flBpp := rfl
@[simp] theorem withCrcAcc_flPv : (s.withCrcAcc v).flPv = s.flPv := rfl
@[simp] theorem withCrcAcc_cur : (s.withCrcAcc v).cur = s.cur := rfl
@[simp] theorem withCrcAcc_prev : (s.withCrcAcc v).prev = s.prev := rfl
@[simp] theorem withCrcAcc_out : (s.withCrcAcc v).out = s.out := rfl
@[simp] theorem withCrcAcc_tag : (s.withCrcAcc v).tag = s.tag := rfl
@[simp] theorem withCrcAcc_port : (s.withCrcAcc v).port = s.port := rfl
@[simp] theorem withCrcAcc_rsp : (s.withCrcAcc v).rsp = s.rsp := rfl
end

section
variable (s : State) (v : BitVec 32)
@[simp] theorem withPkCap_cfg : (s.withPkCap v).cfg = s.cfg := rfl
@[simp] theorem withPkCap_fault : (s.withPkCap v).fault = s.fault := rfl
@[simp] theorem withPkCap_code : (s.withPkCap v).code = s.code := rfl
@[simp] theorem withPkCap_crcAcc : (s.withPkCap v).crcAcc = s.crcAcc := rfl
@[simp] theorem withPkCap_pkCap : (s.withPkCap v).pkCap = some v := rfl
@[simp] theorem withPkCap_pkBuf : (s.withPkCap v).pkBuf = s.pkBuf := rfl
@[simp] theorem withPkCap_flLen : (s.withPkCap v).flLen = s.flLen := rfl
@[simp] theorem withPkCap_flBpp : (s.withPkCap v).flBpp = s.flBpp := rfl
@[simp] theorem withPkCap_flPv : (s.withPkCap v).flPv = s.flPv := rfl
@[simp] theorem withPkCap_cur : (s.withPkCap v).cur = s.cur := rfl
@[simp] theorem withPkCap_prev : (s.withPkCap v).prev = s.prev := rfl
@[simp] theorem withPkCap_out : (s.withPkCap v).out = s.out := rfl
@[simp] theorem withPkCap_tag : (s.withPkCap v).tag = s.tag := rfl
@[simp] theorem withPkCap_port : (s.withPkCap v).port = s.port := rfl
@[simp] theorem withPkCap_rsp : (s.withPkCap v).rsp = s.rsp := rfl
end

section
variable (s : State) (m : Memory)
@[simp] theorem withPkBuf_cfg : (s.withPkBuf m).cfg = s.cfg := rfl
@[simp] theorem withPkBuf_fault : (s.withPkBuf m).fault = s.fault := rfl
@[simp] theorem withPkBuf_code : (s.withPkBuf m).code = s.code := rfl
@[simp] theorem withPkBuf_crcAcc : (s.withPkBuf m).crcAcc = s.crcAcc := rfl
@[simp] theorem withPkBuf_pkCap : (s.withPkBuf m).pkCap = s.pkCap := rfl
@[simp] theorem withPkBuf_pkBuf : (s.withPkBuf m).pkBuf = m := rfl
@[simp] theorem withPkBuf_flLen : (s.withPkBuf m).flLen = s.flLen := rfl
@[simp] theorem withPkBuf_flBpp : (s.withPkBuf m).flBpp = s.flBpp := rfl
@[simp] theorem withPkBuf_flPv : (s.withPkBuf m).flPv = s.flPv := rfl
@[simp] theorem withPkBuf_cur : (s.withPkBuf m).cur = s.cur := rfl
@[simp] theorem withPkBuf_prev : (s.withPkBuf m).prev = s.prev := rfl
@[simp] theorem withPkBuf_out : (s.withPkBuf m).out = s.out := rfl
@[simp] theorem withPkBuf_tag : (s.withPkBuf m).tag = s.tag := rfl
@[simp] theorem withPkBuf_port : (s.withPkBuf m).port = s.port := rfl
@[simp] theorem withPkBuf_rsp : (s.withPkBuf m).rsp = s.rsp := rfl
end

section
variable (s : State) (len : BitVec 16) (bpp : BitVec 4) (pv : Bool)
@[simp] theorem withFlCfg_cfg : (s.withFlCfg len bpp pv).cfg = s.cfg := rfl
@[simp] theorem withFlCfg_fault : (s.withFlCfg len bpp pv).fault = s.fault := rfl
@[simp] theorem withFlCfg_code : (s.withFlCfg len bpp pv).code = s.code := rfl
@[simp] theorem withFlCfg_crcAcc : (s.withFlCfg len bpp pv).crcAcc = s.crcAcc := rfl
@[simp] theorem withFlCfg_pkCap : (s.withFlCfg len bpp pv).pkCap = s.pkCap := rfl
@[simp] theorem withFlCfg_pkBuf : (s.withFlCfg len bpp pv).pkBuf = s.pkBuf := rfl
@[simp] theorem withFlCfg_flLen : (s.withFlCfg len bpp pv).flLen = some len := rfl
@[simp] theorem withFlCfg_flBpp : (s.withFlCfg len bpp pv).flBpp = bpp := rfl
@[simp] theorem withFlCfg_flPv : (s.withFlCfg len bpp pv).flPv = pv := rfl
@[simp] theorem withFlCfg_cur : (s.withFlCfg len bpp pv).cur = s.cur := rfl
@[simp] theorem withFlCfg_prev : (s.withFlCfg len bpp pv).prev = s.prev := rfl
@[simp] theorem withFlCfg_out : (s.withFlCfg len bpp pv).out = s.out := rfl
@[simp] theorem withFlCfg_tag : (s.withFlCfg len bpp pv).tag = s.tag := rfl
@[simp] theorem withFlCfg_port : (s.withFlCfg len bpp pv).port = s.port := rfl
@[simp] theorem withFlCfg_rsp : (s.withFlCfg len bpp pv).rsp = s.rsp := rfl
end

section
variable (s : State) (pv : Bool)
@[simp] theorem withFlPv_cfg : (s.withFlPv pv).cfg = s.cfg := rfl
@[simp] theorem withFlPv_fault : (s.withFlPv pv).fault = s.fault := rfl
@[simp] theorem withFlPv_code : (s.withFlPv pv).code = s.code := rfl
@[simp] theorem withFlPv_crcAcc : (s.withFlPv pv).crcAcc = s.crcAcc := rfl
@[simp] theorem withFlPv_pkCap : (s.withFlPv pv).pkCap = s.pkCap := rfl
@[simp] theorem withFlPv_pkBuf : (s.withFlPv pv).pkBuf = s.pkBuf := rfl
@[simp] theorem withFlPv_flLen : (s.withFlPv pv).flLen = s.flLen := rfl
@[simp] theorem withFlPv_flBpp : (s.withFlPv pv).flBpp = s.flBpp := rfl
@[simp] theorem withFlPv_flPv : (s.withFlPv pv).flPv = pv := rfl
@[simp] theorem withFlPv_cur : (s.withFlPv pv).cur = s.cur := rfl
@[simp] theorem withFlPv_prev : (s.withFlPv pv).prev = s.prev := rfl
@[simp] theorem withFlPv_out : (s.withFlPv pv).out = s.out := rfl
@[simp] theorem withFlPv_tag : (s.withFlPv pv).tag = s.tag := rfl
@[simp] theorem withFlPv_port : (s.withFlPv pv).port = s.port := rfl
@[simp] theorem withFlPv_rsp : (s.withFlPv pv).rsp = s.rsp := rfl
end

section
variable (s : State) (m : Memory)
@[simp] theorem withCur_cfg : (s.withCur m).cfg = s.cfg := rfl
@[simp] theorem withCur_fault : (s.withCur m).fault = s.fault := rfl
@[simp] theorem withCur_code : (s.withCur m).code = s.code := rfl
@[simp] theorem withCur_crcAcc : (s.withCur m).crcAcc = s.crcAcc := rfl
@[simp] theorem withCur_pkCap : (s.withCur m).pkCap = s.pkCap := rfl
@[simp] theorem withCur_pkBuf : (s.withCur m).pkBuf = s.pkBuf := rfl
@[simp] theorem withCur_flLen : (s.withCur m).flLen = s.flLen := rfl
@[simp] theorem withCur_flBpp : (s.withCur m).flBpp = s.flBpp := rfl
@[simp] theorem withCur_flPv : (s.withCur m).flPv = s.flPv := rfl
@[simp] theorem withCur_cur : (s.withCur m).cur = m := rfl
@[simp] theorem withCur_prev : (s.withCur m).prev = s.prev := rfl
@[simp] theorem withCur_out : (s.withCur m).out = s.out := rfl
@[simp] theorem withCur_tag : (s.withCur m).tag = s.tag := rfl
@[simp] theorem withCur_port : (s.withCur m).port = s.port := rfl
@[simp] theorem withCur_rsp : (s.withCur m).rsp = s.rsp := rfl
end

section
variable (s : State) (m : Memory)
@[simp] theorem withPrev_cfg : (s.withPrev m).cfg = s.cfg := rfl
@[simp] theorem withPrev_fault : (s.withPrev m).fault = s.fault := rfl
@[simp] theorem withPrev_code : (s.withPrev m).code = s.code := rfl
@[simp] theorem withPrev_crcAcc : (s.withPrev m).crcAcc = s.crcAcc := rfl
@[simp] theorem withPrev_pkCap : (s.withPrev m).pkCap = s.pkCap := rfl
@[simp] theorem withPrev_pkBuf : (s.withPrev m).pkBuf = s.pkBuf := rfl
@[simp] theorem withPrev_flLen : (s.withPrev m).flLen = s.flLen := rfl
@[simp] theorem withPrev_flBpp : (s.withPrev m).flBpp = s.flBpp := rfl
@[simp] theorem withPrev_flPv : (s.withPrev m).flPv = s.flPv := rfl
@[simp] theorem withPrev_cur : (s.withPrev m).cur = s.cur := rfl
@[simp] theorem withPrev_prev : (s.withPrev m).prev = m := rfl
@[simp] theorem withPrev_out : (s.withPrev m).out = s.out := rfl
@[simp] theorem withPrev_tag : (s.withPrev m).tag = s.tag := rfl
@[simp] theorem withPrev_port : (s.withPrev m).port = s.port := rfl
@[simp] theorem withPrev_rsp : (s.withPrev m).rsp = s.rsp := rfl
end

section
variable (s : State) (m : Memory) (t : Option FilterKind)
@[simp] theorem withOut_cfg : (s.withOut m t).cfg = s.cfg := rfl
@[simp] theorem withOut_fault : (s.withOut m t).fault = s.fault := rfl
@[simp] theorem withOut_code : (s.withOut m t).code = s.code := rfl
@[simp] theorem withOut_crcAcc : (s.withOut m t).crcAcc = s.crcAcc := rfl
@[simp] theorem withOut_pkCap : (s.withOut m t).pkCap = s.pkCap := rfl
@[simp] theorem withOut_pkBuf : (s.withOut m t).pkBuf = s.pkBuf := rfl
@[simp] theorem withOut_flLen : (s.withOut m t).flLen = s.flLen := rfl
@[simp] theorem withOut_flBpp : (s.withOut m t).flBpp = s.flBpp := rfl
@[simp] theorem withOut_flPv : (s.withOut m t).flPv = s.flPv := rfl
@[simp] theorem withOut_cur : (s.withOut m t).cur = s.cur := rfl
@[simp] theorem withOut_prev : (s.withOut m t).prev = s.prev := rfl
@[simp] theorem withOut_out : (s.withOut m t).out = m := rfl
@[simp] theorem withOut_tag : (s.withOut m t).tag = t := rfl
@[simp] theorem withOut_port : (s.withOut m t).port = s.port := rfl
@[simp] theorem withOut_rsp : (s.withOut m t).rsp = s.rsp := rfl
end

section
variable (s : State) (p : List HostInput)
@[simp] theorem withPort_cfg : (s.withPort p).cfg = s.cfg := rfl
@[simp] theorem withPort_fault : (s.withPort p).fault = s.fault := rfl
@[simp] theorem withPort_code : (s.withPort p).code = s.code := rfl
@[simp] theorem withPort_crcAcc : (s.withPort p).crcAcc = s.crcAcc := rfl
@[simp] theorem withPort_pkCap : (s.withPort p).pkCap = s.pkCap := rfl
@[simp] theorem withPort_pkBuf : (s.withPort p).pkBuf = s.pkBuf := rfl
@[simp] theorem withPort_flLen : (s.withPort p).flLen = s.flLen := rfl
@[simp] theorem withPort_flBpp : (s.withPort p).flBpp = s.flBpp := rfl
@[simp] theorem withPort_flPv : (s.withPort p).flPv = s.flPv := rfl
@[simp] theorem withPort_cur : (s.withPort p).cur = s.cur := rfl
@[simp] theorem withPort_prev : (s.withPort p).prev = s.prev := rfl
@[simp] theorem withPort_out : (s.withPort p).out = s.out := rfl
@[simp] theorem withPort_tag : (s.withPort p).tag = s.tag := rfl
@[simp] theorem withPort_port : (s.withPort p).port = p := rfl
@[simp] theorem withPort_rsp : (s.withPort p).rsp = s.rsp := rfl
end

section
variable (s : State) (st : Status) (d : Word)
@[simp] theorem withRsp_cfg : (s.withRsp st d).cfg = s.cfg := rfl
@[simp] theorem withRsp_fault : (s.withRsp st d).fault = s.fault := rfl
@[simp] theorem withRsp_code : (s.withRsp st d).code = s.code := rfl
@[simp] theorem withRsp_crcAcc : (s.withRsp st d).crcAcc = s.crcAcc := rfl
@[simp] theorem withRsp_pkCap : (s.withRsp st d).pkCap = s.pkCap := rfl
@[simp] theorem withRsp_pkBuf : (s.withRsp st d).pkBuf = s.pkBuf := rfl
@[simp] theorem withRsp_flLen : (s.withRsp st d).flLen = s.flLen := rfl
@[simp] theorem withRsp_flBpp : (s.withRsp st d).flBpp = s.flBpp := rfl
@[simp] theorem withRsp_flPv : (s.withRsp st d).flPv = s.flPv := rfl
@[simp] theorem withRsp_cur : (s.withRsp st d).cur = s.cur := rfl
@[simp] theorem withRsp_prev : (s.withRsp st d).prev = s.prev := rfl
@[simp] theorem withRsp_out : (s.withRsp st d).out = s.out := rfl
@[simp] theorem withRsp_tag : (s.withRsp st d).tag = s.tag := rfl
@[simp] theorem withRsp_port : (s.withRsp st d).port = s.port := rfl
@[simp] theorem withRsp_rsp : (s.withRsp st d).rsp = some ⟨st, d⟩ := rfl
end

section
variable (s : State) (d : Word)
@[simp] theorem responded_cfg : (s.responded d).cfg = s.cfg := rfl
@[simp] theorem responded_fault : (s.responded d).fault = s.fault := rfl
@[simp] theorem responded_code : (s.responded d).code = s.code := rfl
@[simp] theorem responded_crcAcc : (s.responded d).crcAcc = s.crcAcc := rfl
@[simp] theorem responded_pkCap : (s.responded d).pkCap = s.pkCap := rfl
@[simp] theorem responded_pkBuf : (s.responded d).pkBuf = s.pkBuf := rfl
@[simp] theorem responded_flLen : (s.responded d).flLen = s.flLen := rfl
@[simp] theorem responded_flBpp : (s.responded d).flBpp = s.flBpp := rfl
@[simp] theorem responded_flPv : (s.responded d).flPv = s.flPv := rfl
@[simp] theorem responded_cur : (s.responded d).cur = s.cur := rfl
@[simp] theorem responded_prev : (s.responded d).prev = s.prev := rfl
@[simp] theorem responded_out : (s.responded d).out = s.out := rfl
@[simp] theorem responded_tag : (s.responded d).tag = s.tag := rfl
@[simp] theorem responded_port : (s.responded d).port = s.port := rfl
@[simp] theorem responded_rsp : (s.responded d).rsp = some ⟨.ok, d⟩ := rfl
end

section
variable (s : State) (e : Status)
@[simp] theorem raised_cfg : (s.raised e).cfg = s.cfg := rfl
@[simp] theorem raised_fault : (s.raised e).fault = true := rfl
@[simp] theorem raised_code : (s.raised e).code = e := rfl
@[simp] theorem raised_crcAcc : (s.raised e).crcAcc = s.crcAcc := rfl
@[simp] theorem raised_pkCap : (s.raised e).pkCap = s.pkCap := rfl
@[simp] theorem raised_pkBuf : (s.raised e).pkBuf = s.pkBuf := rfl
@[simp] theorem raised_flLen : (s.raised e).flLen = s.flLen := rfl
@[simp] theorem raised_flBpp : (s.raised e).flBpp = s.flBpp := rfl
@[simp] theorem raised_flPv : (s.raised e).flPv = s.flPv := rfl
@[simp] theorem raised_cur : (s.raised e).cur = s.cur := rfl
@[simp] theorem raised_prev : (s.raised e).prev = s.prev := rfl
@[simp] theorem raised_out : (s.raised e).out = s.out := rfl
@[simp] theorem raised_tag : (s.raised e).tag = s.tag := rfl
@[simp] theorem raised_port : (s.raised e).port = s.port := rfl
@[simp] theorem raised_rsp : (s.raised e).rsp = some ⟨e, 0⟩ := rfl
end

section
variable (s : State)
@[simp] theorem afterReset_cfg : (s.afterReset).cfg = s.cfg := rfl
@[simp] theorem afterReset_fault : (s.afterReset).fault = false := rfl
@[simp] theorem afterReset_code : (s.afterReset).code = .ok := rfl
@[simp] theorem afterReset_crcAcc : (s.afterReset).crcAcc = none := rfl
@[simp] theorem afterReset_pkCap : (s.afterReset).pkCap = none := rfl
@[simp] theorem afterReset_pkBuf : (s.afterReset).pkBuf = [] := rfl
@[simp] theorem afterReset_flLen : (s.afterReset).flLen = none := rfl
@[simp] theorem afterReset_flBpp : (s.afterReset).flBpp = 0 := rfl
@[simp] theorem afterReset_flPv : (s.afterReset).flPv = false := rfl
@[simp] theorem afterReset_cur : (s.afterReset).cur = [] := rfl
@[simp] theorem afterReset_prev : (s.afterReset).prev = [] := rfl
@[simp] theorem afterReset_out : (s.afterReset).out = [] := rfl
@[simp] theorem afterReset_tag : (s.afterReset).tag = none := rfl
@[simp] theorem afterReset_port : (s.afterReset).port = s.port := rfl
@[simp] theorem afterReset_rsp : (s.afterReset).rsp = none := rfl
end

/-! ### The accessors read only their own buffer. -/

section
variable (s : State)
@[simp] theorem withStatus_curCell (f : Bool) (c : Status) (i : Nat) : (s.withStatus f c).curCell i = s.curCell i := rfl
@[simp] theorem withCrcAcc_curCell (v : BitVec 32) (i : Nat) : (s.withCrcAcc v).curCell i = s.curCell i := rfl
@[simp] theorem withPkCap_curCell (v : BitVec 32) (i : Nat) : (s.withPkCap v).curCell i = s.curCell i := rfl
@[simp] theorem withPkBuf_curCell (m : Memory) (i : Nat) : (s.withPkBuf m).curCell i = s.curCell i := rfl
@[simp] theorem withFlCfg_curCell (len : BitVec 16) (bpp : BitVec 4) (pv : Bool) (i : Nat) : (s.withFlCfg len bpp pv).curCell i = s.curCell i := rfl
@[simp] theorem withFlPv_curCell (pv : Bool) (i : Nat) : (s.withFlPv pv).curCell i = s.curCell i := rfl
@[simp] theorem withPrev_curCell (m : Memory) (i : Nat) : (s.withPrev m).curCell i = s.curCell i := rfl
@[simp] theorem withOut_curCell (m : Memory) (t : Option FilterKind) (i : Nat) : (s.withOut m t).curCell i = s.curCell i := rfl
@[simp] theorem withPort_curCell (p : List HostInput) (i : Nat) : (s.withPort p).curCell i = s.curCell i := rfl
@[simp] theorem withRsp_curCell (st : Status) (d : Word) (i : Nat) : (s.withRsp st d).curCell i = s.curCell i := rfl
@[simp] theorem responded_curCell (d : Word) (i : Nat) : (s.responded d).curCell i = s.curCell i := rfl
@[simp] theorem raised_curCell (e : Status) (i : Nat) : (s.raised e).curCell i = s.curCell i := rfl
@[simp] theorem withStatus_prevCell (f : Bool) (c : Status) (i : Nat) : (s.withStatus f c).prevCell i = s.prevCell i := rfl
@[simp] theorem withCrcAcc_prevCell (v : BitVec 32) (i : Nat) : (s.withCrcAcc v).prevCell i = s.prevCell i := rfl
@[simp] theorem withPkCap_prevCell (v : BitVec 32) (i : Nat) : (s.withPkCap v).prevCell i = s.prevCell i := rfl
@[simp] theorem withPkBuf_prevCell (m : Memory) (i : Nat) : (s.withPkBuf m).prevCell i = s.prevCell i := rfl
@[simp] theorem withFlCfg_prevCell (len : BitVec 16) (bpp : BitVec 4) (pv : Bool) (i : Nat) : (s.withFlCfg len bpp pv).prevCell i = s.prevCell i := rfl
@[simp] theorem withFlPv_prevCell (pv : Bool) (i : Nat) : (s.withFlPv pv).prevCell i = s.prevCell i := rfl
@[simp] theorem withCur_prevCell (m : Memory) (i : Nat) : (s.withCur m).prevCell i = s.prevCell i := rfl
@[simp] theorem withOut_prevCell (m : Memory) (t : Option FilterKind) (i : Nat) : (s.withOut m t).prevCell i = s.prevCell i := rfl
@[simp] theorem withPort_prevCell (p : List HostInput) (i : Nat) : (s.withPort p).prevCell i = s.prevCell i := rfl
@[simp] theorem withRsp_prevCell (st : Status) (d : Word) (i : Nat) : (s.withRsp st d).prevCell i = s.prevCell i := rfl
@[simp] theorem responded_prevCell (d : Word) (i : Nat) : (s.responded d).prevCell i = s.prevCell i := rfl
@[simp] theorem raised_prevCell (e : Status) (i : Nat) : (s.raised e).prevCell i = s.prevCell i := rfl
@[simp] theorem withStatus_outCell (f : Bool) (c : Status) (i : Nat) : (s.withStatus f c).outCell i = s.outCell i := rfl
@[simp] theorem withCrcAcc_outCell (v : BitVec 32) (i : Nat) : (s.withCrcAcc v).outCell i = s.outCell i := rfl
@[simp] theorem withPkCap_outCell (v : BitVec 32) (i : Nat) : (s.withPkCap v).outCell i = s.outCell i := rfl
@[simp] theorem withPkBuf_outCell (m : Memory) (i : Nat) : (s.withPkBuf m).outCell i = s.outCell i := rfl
@[simp] theorem withFlCfg_outCell (len : BitVec 16) (bpp : BitVec 4) (pv : Bool) (i : Nat) : (s.withFlCfg len bpp pv).outCell i = s.outCell i := rfl
@[simp] theorem withFlPv_outCell (pv : Bool) (i : Nat) : (s.withFlPv pv).outCell i = s.outCell i := rfl
@[simp] theorem withCur_outCell (m : Memory) (i : Nat) : (s.withCur m).outCell i = s.outCell i := rfl
@[simp] theorem withPrev_outCell (m : Memory) (i : Nat) : (s.withPrev m).outCell i = s.outCell i := rfl
@[simp] theorem withPort_outCell (p : List HostInput) (i : Nat) : (s.withPort p).outCell i = s.outCell i := rfl
@[simp] theorem withRsp_outCell (st : Status) (d : Word) (i : Nat) : (s.withRsp st d).outCell i = s.outCell i := rfl
@[simp] theorem responded_outCell (d : Word) (i : Nat) : (s.responded d).outCell i = s.outCell i := rfl
@[simp] theorem raised_outCell (e : Status) (i : Nat) : (s.raised e).outCell i = s.outCell i := rfl
@[simp] theorem withStatus_pkByte (f : Bool) (c : Status) (i : Nat) : (s.withStatus f c).pkByte i = s.pkByte i := rfl
@[simp] theorem withCrcAcc_pkByte (v : BitVec 32) (i : Nat) : (s.withCrcAcc v).pkByte i = s.pkByte i := rfl
@[simp] theorem withPkCap_pkByte (v : BitVec 32) (i : Nat) : (s.withPkCap v).pkByte i = s.pkByte i := rfl
@[simp] theorem withFlCfg_pkByte (len : BitVec 16) (bpp : BitVec 4) (pv : Bool) (i : Nat) : (s.withFlCfg len bpp pv).pkByte i = s.pkByte i := rfl
@[simp] theorem withFlPv_pkByte (pv : Bool) (i : Nat) : (s.withFlPv pv).pkByte i = s.pkByte i := rfl
@[simp] theorem withCur_pkByte (m : Memory) (i : Nat) : (s.withCur m).pkByte i = s.pkByte i := rfl
@[simp] theorem withPrev_pkByte (m : Memory) (i : Nat) : (s.withPrev m).pkByte i = s.pkByte i := rfl
@[simp] theorem withOut_pkByte (m : Memory) (t : Option FilterKind) (i : Nat) : (s.withOut m t).pkByte i = s.pkByte i := rfl
@[simp] theorem withPort_pkByte (p : List HostInput) (i : Nat) : (s.withPort p).pkByte i = s.pkByte i := rfl
@[simp] theorem withRsp_pkByte (st : Status) (d : Word) (i : Nat) : (s.withRsp st d).pkByte i = s.pkByte i := rfl
@[simp] theorem responded_pkByte (d : Word) (i : Nat) : (s.responded d).pkByte i = s.pkByte i := rfl
@[simp] theorem raised_pkByte (e : Status) (i : Nat) : (s.raised e).pkByte i = s.pkByte i := rfl
@[simp] theorem withStatus_pkBit (f : Bool) (c : Status) (i : Nat) : (s.withStatus f c).pkBit i = s.pkBit i := rfl
@[simp] theorem withCrcAcc_pkBit (v : BitVec 32) (i : Nat) : (s.withCrcAcc v).pkBit i = s.pkBit i := rfl
@[simp] theorem withPkCap_pkBit (v : BitVec 32) (i : Nat) : (s.withPkCap v).pkBit i = s.pkBit i := rfl
@[simp] theorem withFlCfg_pkBit (len : BitVec 16) (bpp : BitVec 4) (pv : Bool) (i : Nat) : (s.withFlCfg len bpp pv).pkBit i = s.pkBit i := rfl
@[simp] theorem withFlPv_pkBit (pv : Bool) (i : Nat) : (s.withFlPv pv).pkBit i = s.pkBit i := rfl
@[simp] theorem withCur_pkBit (m : Memory) (i : Nat) : (s.withCur m).pkBit i = s.pkBit i := rfl
@[simp] theorem withPrev_pkBit (m : Memory) (i : Nat) : (s.withPrev m).pkBit i = s.pkBit i := rfl
@[simp] theorem withOut_pkBit (m : Memory) (t : Option FilterKind) (i : Nat) : (s.withOut m t).pkBit i = s.pkBit i := rfl
@[simp] theorem withPort_pkBit (p : List HostInput) (i : Nat) : (s.withPort p).pkBit i = s.pkBit i := rfl
@[simp] theorem withRsp_pkBit (st : Status) (d : Word) (i : Nat) : (s.withRsp st d).pkBit i = s.pkBit i := rfl
@[simp] theorem responded_pkBit (d : Word) (i : Nat) : (s.responded d).pkBit i = s.pkBit i := rfl
@[simp] theorem raised_pkBit (e : Status) (i : Nat) : (s.raised e).pkBit i = s.pkBit i := rfl
end

end Sys2Proof.Machine.State
end

