-- ==== Sys2Proof/Laws/Ops.lean ====
section
/-! SUPPORT. What the shared operations can answer, said once. -/

namespace Sys2Proof.Machine

@[simp] theorem respond_eq (d : Word) (s : State) : respond d s = .next (s.responded d) := rfl

@[simp] theorem raise_eq (e : Status) (s : State) : raise e s = .next (s.raised e) := rfl

@[simp] theorem gated_eq (s : State) : gated s = .next (s.withRsp .faulted 0) := rfl

@[simp] theorem wait_eq (s : State) : wait s = .next s := rfl

@[simp] theorem runReset_eq (p : Option Cmd) (s : State) : runReset p s = .next s.afterReset := rfl

/-- The row operand (R80): every cell of CUR below `len` is written, and the row is those cells. -/
theorem curRow_eq_some (len : Nat) (s : State) (x : List Byte) :
    s.cur.readFrom rowUnlisted 0 len = some x ↔ x.length = len ∧ ∀ i < len, s.curCell i = x[i]? := by
  simpa [State.curCell] using Memory.readFrom_eq_some rowUnlisted s.cur 0 len x

/-- The previous-row operand (R80). -/
theorem prevOperand_eq_some (len : Nat) (s : State) (p : Option (List Byte)) :
    prevOperand len s = some p ↔
      (s.flPv = false ∧ p = none) ∨
        (s.flPv = true ∧ ∃ row, p = some row ∧ row.length = len ∧ ∀ i < len, s.prevCell i = row[i]?) := by
  have h := fun row => Memory.readFrom_eq_some rowUnlisted s.prev 0 len row
  simp only [Nat.zero_add] at h
  simp only [prevOperand, State.prevCell]
  cases s.flPv with
  | false => simp [eq_comm]
  | true =>
    simp only [if_true, Option.map_eq_some_iff, h]
    constructor
    · rintro ⟨row, hr, rfl⟩; exact .inr ⟨trivial, row, rfl, hr⟩
    · rintro (⟨h0, -⟩ | ⟨-, row, rfl, hr⟩)
      · cases h0
      · exact ⟨row, hr, rfl⟩

/-- `rowOperands` answers exactly when both operands are there. -/
theorem rowOperands_eq_some (len : Nat) (s : State) (x : List Byte) (p : Option (List Byte)) :
    rowOperands len s = some (x, p) ↔
      s.cur.readFrom rowUnlisted 0 len = some x ∧ prevOperand len s = some p := by
  simp only [rowOperands]
  split
  · next h1 h2 => simp [h1, h2]
  · next h =>
    constructor
    · simp
    · rintro ⟨h1, h2⟩; exact absurd h2 (h _ _ h1)

/-- The row a filter command works on has FL_LEN bytes. -/
theorem rowOperands_length {len : Nat} {s : State} {x : List Byte} {p : Option (List Byte)}
    (h : rowOperands len s = some (x, p)) : x.length = len :=
  ((curRow_eq_some len s x).mp ((rowOperands_eq_some len s x p).mp h).1).1

/-- What FL_FWD and FL_INV can do (R81, R82), in the order of their checks. -/
theorem fixedFilter_cases (f : FilterKind → List Byte → Option (List Byte) → Nat → List Byte) (kind : BitVec 3)
    (s : State) :
    (s.flLen = none ∧ fixedFilter f kind s = .next (s.raised .notInit)) ∨
    (∃ len, s.flLen = some len ∧
      ((kindOfField kind = none ∧ fixedFilter f kind s = .next (s.raised .filterType)) ∨
       (∃ k, kindOfField kind = some k ∧
         ((rowOperands len.toNat s = none ∧ fixedFilter f kind s = .next (s.raised .unwritten)) ∨
          (∃ x p, rowOperands len.toNat s = some (x, p) ∧
            fixedFilter f kind s = storeRow k (f k x p s.flBpp.toNat) s))))) := by
  unfold fixedFilter
  cases s.flLen with
  | none => simp
  | some len =>
    cases kindOfField kind with
    | none => simp
    | some k =>
      cases h : rowOperands len.toNat s with
      | none => simp [h]
      | some xp => obtain ⟨x, p⟩ := xp; simp [h]

/-- What one command word can do (R97, R52): the gate turns it away, the decoder rejects it, or its rule runs. -/
theorem runCommand_cases (w : Cmd) (s : State) :
    (gateCloses s w = true ∧ runCommand w s = .next (s.withRsp .faulted 0)) ∨
    (gateCloses s w = false ∧ ∃ e, decode w = .error e ∧ runCommand w s = .next (s.raised (decodeStatus e))) ∨
    (gateCloses s w = false ∧ ∃ i, decode w = .ok i ∧ runCommand w s = exec i s) := by
  unfold runCommand
  cases gateCloses s w with
  | true => simp
  | false => cases decode w <;> simp

/-- What one step can do. -/
theorem step_cases (s : State) :
    (s.port = [] ∧ step s = .next s) ∨
    (∃ w rest, s.port = .command w :: rest ∧ step s = runCommand w (s.withPort rest)) ∨
    (∃ pending rest, s.port = .reset pending :: rest ∧ step s = .next (s.withPort rest).afterReset) := by
  unfold step serve
  cases h : s.port with
  | nil => simp
  | cons i rest => cases i <;> simp [runInput]

end Sys2Proof.Machine
end

