-- ==== Sys2Proof/Laws/Packer.lean ====
section
/-! SUPPORT. What the packer's operations do to each bit and each byte of its buffer. -/

namespace Sys2Proof.Machine

theorem pkRead_write (m : Memory) (a b : Nat) (v : Byte) :
    pkRead (m.write pkUnlisted a v) b = if a = b then v else pkRead m b := by
  simp only [pkRead, Memory.read_write]
  split <;> rfl

theorem pkRead_clearBelow (m : Memory) (n b : Nat) :
    pkRead (m.clearBelow n) b = if b < n then 0 else pkRead m b := by
  simp only [pkRead, Memory.read_clearBelow]
  split <;> rfl

/-- One bit of a byte that one bit was ORed into. -/
theorem getLsbD_or_bit (v : Byte) (bit : Bool) (i j : Nat) (hj : j < 8) :
    (v ||| ((BitVec.ofBool bit).setWidth 8 <<< i)).getLsbD j = (v.getLsbD j || (bit && decide (j = i))) := by
  simp only [BitVec.getLsbD_or, BitVec.getLsbD_shiftLeft, BitVec.getLsbD_setWidth, hj, decide_true, Bool.true_and]
  congr 1
  by_cases h1 : j < i
  · simp [h1, Nat.ne_of_lt h1]
  · by_cases h2 : j = i
    · subst h2; cases bit <;> simp
    · have : 0 < j - i := by omega
      simp only [h1, decide_false, Bool.not_false, Bool.true_and, h2, Bool.and_false]
      have h3 : j - i < 8 := by omega
      simp only [h3, decide_true, Bool.true_and]
      exact BitVec.getLsbD_of_ge _ _ (by omega)

/-- `putBit` sets its own bit when asked to, clears none, and leaves every other bit. -/
theorem pkReadBit_putBit (m : Memory) (pos k : Nat) (bit : Bool) :
    pkReadBit (putBit m pos bit) k = (pkReadBit m k || (bit && decide (k = pos))) := by
  simp only [pkReadBit, putBit, pkRead_write]
  split
  · next h =>
    rw [getLsbD_or_bit _ _ _ _ (by omega), h]
    congr 2
    simp only [decide_eq_decide]
    constructor <;> intro h' <;> omega
  · next h =>
    have : k ≠ pos := fun hk => h (by rw [hk])
    simp [this]

/-- The bits of `put` (R64): bit `n - 1 - (k - off)` of `val` is ORed in at each bit offset `k` of the range. -/
theorem pkReadBit_putFrom (off : Nat) (val : BitVec 16) (n j k : Nat) (m : Memory) (pos : Nat) :
    pkReadBit (putFrom off val n j k m) pos =
      (pkReadBit m pos || (decide (off + j ≤ pos ∧ pos < off + j + k) && val.getLsbD (n - 1 - (pos - off)))) := by
  induction k generalizing j m with
  | zero =>
    have : ¬(off + j ≤ pos ∧ pos < off + j + 0) := by omega
    simp only [putFrom, this, decide_false, Bool.false_and, Bool.or_false]
  | succ k ih =>
    rw [putFrom, ih, pkReadBit_putBit, Bool.or_assoc]
    congr 1
    by_cases h : pos = off + j
    · subst h
      simp
    · have h1 : (off + (j + 1) ≤ pos ∧ pos < off + (j + 1) + k) ↔ (off + j ≤ pos ∧ pos < off + j + (k + 1)) := by
        omega
      simp [h, h1]

theorem pkReadBit_put (m : Memory) (off : Nat) (val : BitVec 16) (n pos : Nat) :
    pkReadBit (put m off val n) pos =
      (pkReadBit m pos || (decide (off ≤ pos ∧ pos < off + n) && val.getLsbD (n - 1 - (pos - off)))) := by
  simpa [put] using pkReadBit_putFrom off val n 0 n m pos

/-- Two bytes with the same eight bits are the same byte. -/
theorem pkRead_eq_of_bits (m m' : Memory) (i : Nat)
    (h : ∀ k, k / 8 = i → pkReadBit m k = pkReadBit m' k) : pkRead m i = pkRead m' i := by
  apply BitVec.eq_of_getLsbD_eq
  intro j hj
  have := h (8 * i + (7 - j)) (by omega)
  simp only [pkReadBit] at this
  rwa [show (8 * i + (7 - j)) / 8 = i by omega, show 7 - (8 * i + (7 - j)) % 8 = j by omega] at this

theorem putFrom_wf (off : Nat) (val : BitVec 16) (n j k : Nat) (m : Memory) (h : m.wf pkUnlisted = true) :
    (putFrom off val n j k m).wf pkUnlisted = true := by
  induction k generalizing j m with
  | zero => exact h
  | succ k ih => exact ih _ _ (Memory.write_wf _ _ _ _ h)

theorem put_wf (m : Memory) (off : Nat) (val : BitVec 16) (n : Nat) (h : m.wf pkUnlisted = true) :
    (put m off val n).wf pkUnlisted = true := putFrom_wf _ _ _ _ _ _ h

theorem putFrom_below (off : Nat) (val : BitVec 16) (n j k b : Nat) (m : Memory) (h : m.below b = true)
    (hb : ∀ i < k, (off + j + i) / 8 < b) : (putFrom off val n j k m).below b = true := by
  induction k generalizing j m with
  | zero => exact h
  | succ k ih =>
    refine ih _ _ (Memory.write_below _ _ _ _ _ h (hb 0 (by omega))) fun i hi => ?_
    have := hb (i + 1) (by omega)
    omega

/-- A sample that ends within a whole number of bytes lists nothing outside them. -/
theorem put_below (m : Memory) (off : Nat) (val : BitVec 16) (n b : Nat) (h : m.below b = true)
    (hb : off + n ≤ 8 * b) : (put m off val n).below b = true :=
  putFrom_below _ _ _ _ _ _ _ h fun i hi => by omega

end Sys2Proof.Machine
end

