-- ==== Sys2Proof/Laws/PerInstr.lean ====
section
/-! SUPPORT. The family OpcodeRow: the encoded word of every command is a word of its own row of
spec/opcode_table.json (30_encoding.md R52). -/

namespace Sys2Proof.Laws.OpcodeRow

/-- The encoded word has the row's opcode and no reserved bit set. -/
def Statement (i : Instr) : Prop :=
  cmdField (encode i) 56 8 = i.op.opc ∧ encode i &&& reservedMask i.op.format = 0

theorem nop : Statement .nop := by unfold Statement; decide

theorem stRd : Statement .stRd := by unfold Statement; decide

theorem crcInit : Statement .crcInit := by unfold Statement; decide

theorem crcByte (b : BitVec 8) : Statement (.crcByte b) := by
  have hm : reservedMask Op.crcByte.format = 0#8 ++ 0xFFFFFFFFFFFF#48 ++ 0#8 := by decide
  refine ⟨?_, ?_⟩
  · unfold cmdField encode
    simp (disch := omega) only [BitVec.extractLsb'_append_eq_of_le, Nat.reduceSub, BitVec.extractLsb'_eq_self]
    rfl
  · show encode (.crcByte b) &&& reservedMask Op.crcByte.format = 0
    rw [hm]
    unfold encode
    rw [BitVec.and_append, BitVec.and_append]
    simp

theorem crcFinal : Statement .crcFinal := by unfold Statement; decide

theorem crcTbl (b : BitVec 8) : Statement (.crcTbl b) := by
  have hm : reservedMask Op.crcTbl.format = 0#8 ++ 0xFFFFFFFFFFFF#48 ++ 0#8 := by decide
  refine ⟨?_, ?_⟩
  · unfold cmdField encode
    simp (disch := omega) only [BitVec.extractLsb'_append_eq_of_le, Nat.reduceSub, BitVec.extractLsb'_eq_self]
    rfl
  · show encode (.crcTbl b) &&& reservedMask Op.crcTbl.format = 0
    rw [hm]
    unfold encode
    rw [BitVec.and_append, BitVec.and_append]
    simp

theorem pkInit (cap : BitVec 32) : Statement (.pkInit cap) := by
  have hm : reservedMask Op.pkInit.format = 0#8 ++ 0xFFFFFF#24 ++ 0#32 := by decide
  refine ⟨?_, ?_⟩
  · unfold cmdField encode
    simp (disch := omega) only [BitVec.extractLsb'_append_eq_of_le, Nat.reduceSub, BitVec.extractLsb'_eq_self]
    rfl
  · show encode (.pkInit cap) &&& reservedMask Op.pkInit.format = 0
    rw [hm]
    unfold encode
    rw [BitVec.and_append, BitVec.and_append]
    simp

theorem pkPut (off : BitVec 32) (val : BitVec 16) (n : BitVec 5) : Statement (.pkPut off val n) := by
  have hm : reservedMask Op.pkPut.format = 0#8 ++ 0#32 ++ 0#16 ++ 7#3 ++ 0#5 := by decide
  refine ⟨?_, ?_⟩
  · unfold cmdField encode
    simp (disch := omega) only [BitVec.extractLsb'_append_eq_of_le, Nat.reduceSub, BitVec.extractLsb'_eq_self]
    rfl
  · show encode (.pkPut off val n) &&& reservedMask Op.pkPut.format = 0
    rw [hm]
    unfold encode
    rw [BitVec.and_append, BitVec.and_append, BitVec.and_append, BitVec.and_append]
    simp

theorem pkRdb (idx : BitVec 32) : Statement (.pkRdb idx) := by
  have hm : reservedMask Op.pkRdb.format = 0#8 ++ 0xFFFFFF#24 ++ 0#32 := by decide
  refine ⟨?_, ?_⟩
  · unfold cmdField encode
    simp (disch := omega) only [BitVec.extractLsb'_append_eq_of_le, Nat.reduceSub, BitVec.extractLsb'_eq_self]
    rfl
  · show encode (.pkRdb idx) &&& reservedMask Op.pkRdb.format = 0
    rw [hm]
    unfold encode
    rw [BitVec.and_append, BitVec.and_append]
    simp

theorem flCfg (len : BitVec 16) (bpp : BitVec 4) (pv : Bool) : Statement (.flCfg len bpp pv) := by
  have hm : reservedMask Op.flCfg.format = 0#8 ++ 0xFFFFFFFF#32 ++ 0#16 ++ 0#4 ++ 7#3 ++ 0#1 := by decide
  refine ⟨?_, ?_⟩
  · unfold cmdField encode
    simp (disch := omega) only [BitVec.extractLsb'_append_eq_of_le, Nat.reduceSub, BitVec.extractLsb'_eq_self]
    rfl
  · show encode (.flCfg len bpp pv) &&& reservedMask Op.flCfg.format = 0
    rw [hm]
    unfold encode
    rw [BitVec.and_append, BitVec.and_append, BitVec.and_append, BitVec.and_append, BitVec.and_append]
    simp

theorem flWr (sel : RowSel) (idx : BitVec 16) (byte : BitVec 8) : Statement (.flWr sel idx byte) := by
  have hm : reservedMask Op.flWr.format = 0#8 ++ 0x7FFFFFFF#31 ++ 0#1 ++ 0#16 ++ 0#8 := by decide
  refine ⟨?_, ?_⟩
  · unfold cmdField encode
    simp (disch := omega) only [BitVec.extractLsb'_append_eq_of_le, Nat.reduceSub, BitVec.extractLsb'_eq_self]
    rfl
  · show encode (.flWr sel idx byte) &&& reservedMask Op.flWr.format = 0
    rw [hm]
    unfold encode
    rw [BitVec.and_append, BitVec.and_append, BitVec.and_append, BitVec.and_append]
    simp

theorem flFwd (kind : BitVec 3) : Statement (.flFwd kind) := by
  have hm : reservedMask Op.flFwd.format = 0#8 ++ 0x1FFFFFFFFFFFFF#53 ++ 0#3 := by decide
  refine ⟨?_, ?_⟩
  · unfold cmdField encode
    simp (disch := omega) only [BitVec.extractLsb'_append_eq_of_le, Nat.reduceSub, BitVec.extractLsb'_eq_self]
    rfl
  · show encode (.flFwd kind) &&& reservedMask Op.flFwd.format = 0
    rw [hm]
    unfold encode
    rw [BitVec.and_append, BitVec.and_append]
    simp

theorem flSel (gray : Bool) (depth : BitVec 5) : Statement (.flSel gray depth) := by
  have hm : reservedMask Op.flSel.format = 0#8 ++ 0x3FFFFFFFFFFFF#50 ++ 0#1 ++ 0#5 := by decide
  refine ⟨?_, ?_⟩
  · unfold cmdField encode
    simp (disch := omega) only [BitVec.extractLsb'_append_eq_of_le, Nat.reduceSub, BitVec.extractLsb'_eq_self]
    rfl
  · show encode (.flSel gray depth) &&& reservedMask Op.flSel.format = 0
    rw [hm]
    unfold encode
    rw [BitVec.and_append, BitVec.and_append, BitVec.and_append]
    simp

theorem flInv (kind : BitVec 3) : Statement (.flInv kind) := by
  have hm : reservedMask Op.flInv.format = 0#8 ++ 0x1FFFFFFFFFFFFF#53 ++ 0#3 := by decide
  refine ⟨?_, ?_⟩
  · unfold cmdField encode
    simp (disch := omega) only [BitVec.extractLsb'_append_eq_of_le, Nat.reduceSub, BitVec.extractLsb'_eq_self]
    rfl
  · show encode (.flInv kind) &&& reservedMask Op.flInv.format = 0
    rw [hm]
    unfold encode
    rw [BitVec.and_append, BitVec.and_append]
    simp

theorem flRdo (idx : BitVec 16) : Statement (.flRdo idx) := by
  have hm : reservedMask Op.flRdo.format = 0#8 ++ 0xFFFFFFFFFF#40 ++ 0#16 := by decide
  refine ⟨?_, ?_⟩
  · unfold cmdField encode
    simp (disch := omega) only [BitVec.extractLsb'_append_eq_of_le, Nat.reduceSub, BitVec.extractLsb'_eq_self]
    rfl
  · show encode (.flRdo idx) &&& reservedMask Op.flRdo.format = 0
    rw [hm]
    unfold encode
    rw [BitVec.and_append, BitVec.and_append]
    simp

theorem flRdt : Statement .flRdt := by unfold Statement; decide

theorem flShift (src : ShiftSrc) : Statement (.flShift src) := by
  have hm : reservedMask Op.flShift.format = 0#8 ++ 0x7FFFFFFFFFFFFF#55 ++ 0#1 := by decide
  refine ⟨?_, ?_⟩
  · unfold cmdField encode
    simp (disch := omega) only [BitVec.extractLsb'_append_eq_of_le, Nat.reduceSub, BitVec.extractLsb'_eq_self]
    rfl
  · show encode (.flShift src) &&& reservedMask Op.flShift.format = 0
    rw [hm]
    unfold encode
    rw [BitVec.and_append, BitVec.and_append]
    simp

end Sys2Proof.Laws.OpcodeRow
end

