-- ==== Sys2Proof/Tests/Slice0.lean ====
section
/-! SUPPORT. The model's own tests. Every expected word, response and byte is copied from the spec (the section or
rule is named), never from the model. The witness theorems show that the hypotheses of a statement can be met. -/

namespace Sys2Proof.Tests

open Sys2Proof.Machine

/-! ### Helpers -/

/-- The state a result holds; the reset state where it holds none. -/
def stateOf : Result → State
  | .next t => t
  | _ => State.reset

/-- One step on the word `w`. -/
def after (w : Cmd) (s : State) : State := stateOf (step { s with port := [.command w] })

/-- What `w` answers: the status code and the data of the response, and the status word afterwards. -/
def answer (w : Cmd) (s : State) : Option (BitVec 4 × Word) × Word :=
  ((after w s).rsp.map fun r => (r.status.code, r.data), statusWord (after w s))

/-- A row buffer with the given bytes from index 0 on. -/
def row (bs : List Byte) : Memory := Memory.writeFrom rowUnlisted [] 0 bs

/-- The bytes `0 .. n-1` of a row buffer. -/
def cells (m : Memory) (n : Nat) : List (Option Byte) := (List.range n).map (m.read rowUnlisted)

/-- The CRC unit with its accumulator written. -/
def crcState (acc : Word) : State := { State.reset with crcAcc := some acc }

/-- The packer with a capacity and the first bytes of its buffer. -/
def pkState (cap : Nat) (bs : List Byte) : State :=
  { State.reset with pkCap := some (BitVec.ofNat 32 cap), pkBuf := Memory.writeFrom pkUnlisted [] 0 bs }

/-- The bytes `0 .. n-1` of PK_BUF. -/
def pkBytes (s : State) (n : Nat) : List Byte := (List.range n).map s.pkByte

/-- The filter unit configured, with CUR and PREV loaded (no PREV row: FL_PV = 0). -/
def flState (bpp : Nat) (cur : List Byte) (prev : Option (List Byte)) : State :=
  { State.reset with
    flLen := some (BitVec.ofNat 16 cur.length), flBpp := BitVec.ofNat 4 bpp, flPv := prev.isSome,
    cur := row cur, prev := row (prev.getD []) }

/-- `flState` after a filter command left the row `o` and the kind `k`. -/
def outState (o : List Byte) (k : FilterKind) : State :=
  { flState 1 [1, 2, 3, 4] none with out := row o, tag := some k }

/-- The block in the fault state with CODE = 3 (95_test_vectors.md 2.7, step 1). -/
def faulted : State := { State.reset with fault := true, code := .notInit }

/-! ### WellFormed: each check refuses an ill-formed line (R54) -/

theorem test_wf_accepts : AsmLine.wellFormed ⟨.pkPut, [.num 0xFFFFFFFF, .num 0xFFFF, .num 31]⟩ = true := by decide

theorem test_wf_b : AsmLine.wellFormed ⟨.crcByte, [.num 256]⟩ = false := by decide

theorem test_wf_w : AsmLine.wellFormed ⟨.pkInit, [.num 0x100000000]⟩ = false := by decide

theorem test_wf_off : AsmLine.wellFormed ⟨.pkPut, [.num 0x100000000, .num 0, .num 1]⟩ = false := by decide

theorem test_wf_val : AsmLine.wellFormed ⟨.pkPut, [.num 0, .num 0x10000, .num 1]⟩ = false := by decide

theorem test_wf_n : AsmLine.wellFormed ⟨.pkPut, [.num 0, .num 0, .num 32]⟩ = false := by decide

theorem test_wf_len : AsmLine.wellFormed ⟨.flCfg, [.num 0x10000, .num 1, .num 0]⟩ = false := by decide

theorem test_wf_bpp : AsmLine.wellFormed ⟨.flCfg, [.num 1, .num 16, .num 0]⟩ = false := by decide

theorem test_wf_pv : AsmLine.wellFormed ⟨.flCfg, [.num 1, .num 1, .num 2]⟩ = false := by decide

theorem test_wf_sel : AsmLine.wellFormed ⟨.flWr, [.num 2, .num 0, .num 0]⟩ = false := by decide

theorem test_wf_idx : AsmLine.wellFormed ⟨.flRdo, [.num 0x10000]⟩ = false := by decide

theorem test_wf_byte : AsmLine.wellFormed ⟨.flWr, [.num 0, .num 0, .num 256]⟩ = false := by decide

theorem test_wf_kind : AsmLine.wellFormed ⟨.flFwd, [.num 8]⟩ = false := by decide

theorem test_wf_gray : AsmLine.wellFormed ⟨.flSel, [.num 2, .num 8]⟩ = false := by decide

theorem test_wf_depth : AsmLine.wellFormed ⟨.flSel, [.num 0, .num 32]⟩ = false := by decide

theorem test_wf_src : AsmLine.wellFormed ⟨.flShift, [.num 2]⟩ = false := by decide

theorem test_wf_symbols_of_other_fields :
    AsmLine.wellFormed ⟨.flShift, [.sym .PREV]⟩ = false ∧ AsmLine.wellFormed ⟨.flWr, [.sym .OUT, .num 0, .num 0]⟩ = false
      ∧ AsmLine.wellFormed ⟨.flFwd, [.sym .CUR]⟩ = false ∧ AsmLine.wellFormed ⟨.crcByte, [.sym .NONE]⟩ = false := by
  decide

theorem test_wf_operand_count :
    AsmLine.wellFormed ⟨.nop, [.num 0]⟩ = false ∧ AsmLine.wellFormed ⟨.crcByte, []⟩ = false
      ∧ AsmLine.wellFormed ⟨.pkPut, [.num 0, .num 0]⟩ = false := by decide

/-! ### Decoding: the words of 95_test_vectors.md and of the rules, for every command -/

theorem test_decode_nop : decode 0x0000000000000000 = .ok .nop := by rfl

theorem test_decode_stRd : decode 0x0100000000000000 = .ok .stRd := by rfl

theorem test_decode_crcInit : decode 0x1000000000000000 = .ok .crcInit := by rfl

theorem test_decode_crcByte : decode 0x1100000000000049 = .ok (.crcByte 0x49) := by rfl

theorem test_decode_crcFinal : decode 0x1200000000000000 = .ok .crcFinal := by rfl

theorem test_decode_crcTbl : decode 0x13000000000000B6 = .ok (.crcTbl 0xB6) := by rfl

theorem test_decode_pkInit : decode 0x2000000000000018 = .ok (.pkInit 24) := by rfl

theorem test_decode_pkPut : decode 0x2100000030FF0010 = .ok (.pkPut 48 0xFF00 16) := by rfl

theorem test_decode_pkRdb : decode 0x220000000000000B = .ok (.pkRdb 11) := by rfl

theorem test_decode_flCfg : decode 0x3000000000001081 = .ok (.flCfg 16 8 true) := by rfl

theorem test_decode_flWr : decode 0x3100000001000F55 = .ok (.flWr .prev 15 0x55) := by rfl

theorem test_decode_flFwd : decode 0x3200000000000005 = .ok (.flFwd 5) := by rfl

theorem test_decode_flSel : decode 0x3300000000000021 = .ok (.flSel true 1) := by rfl

theorem test_decode_flInv : decode 0x3400000000000007 = .ok (.flInv 7) := by rfl

theorem test_decode_flRdo : decode 0x3500000000000005 = .ok (.flRdo 5) := by rfl

theorem test_decode_flRdt : decode 0x3600000000000000 = .ok .flRdt := by rfl

theorem test_decode_flShift : decode 0x3700000000000001 = .ok (.flShift .out) := by rfl

/-- 95_test_vectors.md 2.6: E_ILLEGAL comes before E_RESERVED. -/
theorem test_decode_illegal : decode 0x0200000000000000 = .error .illegal ∧ decode 0xFF00000000000000 = .error .illegal
    ∧ decode 0x38FFFFFFFFFFFFFF = .error .illegal := ⟨rfl, rfl, rfl⟩

/-- 95_test_vectors.md 2.6, one word per format with a reserved bit. -/
theorem test_decode_reserved : [0x0000000000000001, 0x1000000000000100, 0x1100000000000100, 0x2000000100000000,
    0x2100000000000020, 0x300000000000040E, 0x3200000000000008, 0x3700000000000002, 0x0100000000000001].all
      (fun w => match decode w with
        | .error .reserved => true
        | _ => false) = true := by rfl

/-- The host's names: the decoder and a step on a table word. -/
theorem test_table_word : decodeTableWord 64 0x1100000000000049 = some (.crcByte 0x49)
    ∧ decodeTableWord 64 0x0200000000000000 = none := ⟨rfl, rfl⟩

theorem test_fetch_word : (stateOf (step (State.reset.withFetchWord 64 0x1000000000000000))).crcAcc
    = some 0xFFFFFFFF := by rfl

/-! ### The assembler (R54, R55) -/

theorem test_asm_text : assembleText "PK_PUT 7, 0xFFFF, 16" = some 0x2100000007FFFF10
    ∧ assembleText "FL_WR PREV, 15, 0x55" = some 0x3100000001000F55 ∧ assembleText "FL_SHIFT PREV" = none := by
  decide

/-- P3: `FL_CFG 6, 2, NOPREV`. -/
theorem test_asm_line : (assemble ⟨.flCfg, [.num 6, .num 2, .sym .NOPREV]⟩).map encode = some 0x3000000000000620 := by
  decide

/-- P1: `PK_ROW 1, 1, 2, 1, 2, 3`, steps 5 to 7. -/
theorem test_asm_pk_row : (Pseudo.pkRow 1 1 2 [1, 2, 3]).expand.map (fun l => (assemble l).map encode)
    = [some 0x2100000008000102, some 0x210000000A000202, some 0x210000000C000302] := by decide

/-- R55: `FL_READ k` is FL_RDT and then k FL_RDOs; `FL_LOAD` counts up. -/
theorem test_asm_fl_read_load : (Pseudo.flRead 2).expand.map (fun l => (assemble l).map encode)
      = [some 0x3600000000000000, some 0x3500000000000000, some 0x3500000000000001]
    ∧ (Pseudo.flLoad (.sym .CUR) 0 [10, 200]).expand.map (fun l => (assemble l).map encode)
      = [some 0x310000000000000A, some 0x31000000000001C8] := by decide

/-! ### The CRC table -/

/-- Rows 0x00 to 0x38 of the table of 10_state.md R20. -/
def romPart0 : List Word :=
  [0x00000000, 0x77073096, 0xEE0E612C, 0x990951BA, 0x076DC419, 0x706AF48F, 0xE963A535, 0x9E6495A3]
  ++ [0x0EDB8832, 0x79DCB8A4, 0xE0D5E91E, 0x97D2D988, 0x09B64C2B, 0x7EB17CBD, 0xE7B82D07, 0x90BF1D91]
  ++ [0x1DB71064, 0x6AB020F2, 0xF3B97148, 0x84BE41DE, 0x1ADAD47D, 0x6DDDE4EB, 0xF4D4B551, 0x83D385C7]
  ++ [0x136C9856, 0x646BA8C0, 0xFD62F97A, 0x8A65C9EC, 0x14015C4F, 0x63066CD9, 0xFA0F3D63, 0x8D080DF5]
  ++ [0x3B6E20C8, 0x4C69105E, 0xD56041E4, 0xA2677172, 0x3C03E4D1, 0x4B04D447, 0xD20D85FD, 0xA50AB56B]
  ++ [0x35B5A8FA, 0x42B2986C, 0xDBBBC9D6, 0xACBCF940, 0x32D86CE3, 0x45DF5C75, 0xDCD60DCF, 0xABD13D59]
  ++ [0x26D930AC, 0x51DE003A, 0xC8D75180, 0xBFD06116, 0x21B4F4B5, 0x56B3C423, 0xCFBA9599, 0xB8BDA50F]
  ++ [0x2802B89E, 0x5F058808, 0xC60CD9B2, 0xB10BE924, 0x2F6F7C87, 0x58684C11, 0xC1611DAB, 0xB6662D3D]

/-- Rows 0x40 to 0x78 of the table of 10_state.md R20. -/
def romPart1 : List Word :=
  [0x76DC4190, 0x01DB7106, 0x98D220BC, 0xEFD5102A, 0x71B18589, 0x06B6B51F, 0x9FBFE4A5, 0xE8B8D433]
  ++ [0x7807C9A2, 0x0F00F934, 0x9609A88E, 0xE10E9818, 0x7F6A0DBB, 0x086D3D2D, 0x91646C97, 0xE6635C01]
  ++ [0x6B6B51F4, 0x1C6C6162, 0x856530D8, 0xF262004E, 0x6C0695ED, 0x1B01A57B, 0x8208F4C1, 0xF50FC457]
  ++ [0x65B0D9C6, 0x12B7E950, 0x8BBEB8EA, 0xFCB9887C, 0x62DD1DDF, 0x15DA2D49, 0x8CD37CF3, 0xFBD44C65]
  ++ [0x4DB26158, 0x3AB551CE, 0xA3BC0074, 0xD4BB30E2, 0x4ADFA541, 0x3DD895D7, 0xA4D1C46D, 0xD3D6F4FB]
  ++ [0x4369E96A, 0x346ED9FC, 0xAD678846, 0xDA60B8D0, 0x44042D73, 0x33031DE5, 0xAA0A4C5F, 0xDD0D7CC9]
  ++ [0x5005713C, 0x270241AA, 0xBE0B1010, 0xC90C2086, 0x5768B525, 0x206F85B3, 0xB966D409, 0xCE61E49F]
  ++ [0x5EDEF90E, 0x29D9C998, 0xB0D09822, 0xC7D7A8B4, 0x59B33D17, 0x2EB40D81, 0xB7BD5C3B, 0xC0BA6CAD]

/-- Rows 0x80 to 0xB8 of the table of 10_state.md R20. -/
def romPart2 : List Word :=
  [0xEDB88320, 0x9ABFB3B6, 0x03B6E20C, 0x74B1D29A, 0xEAD54739, 0x9DD277AF, 0x04DB2615, 0x73DC1683]
  ++ [0xE3630B12, 0x94643B84, 0x0D6D6A3E, 0x7A6A5AA8, 0xE40ECF0B, 0x9309FF9D, 0x0A00AE27, 0x7D079EB1]
  ++ [0xF00F9344, 0x8708A3D2, 0x1E01F268, 0x6906C2FE, 0xF762575D, 0x806567CB, 0x196C3671, 0x6E6B06E7]
  ++ [0xFED41B76, 0x89D32BE0, 0x10DA7A5A, 0x67DD4ACC, 0xF9B9DF6F, 0x8EBEEFF9, 0x17B7BE43, 0x60B08ED5]
  ++ [0xD6D6A3E8, 0xA1D1937E, 0x38D8C2C4, 0x4FDFF252, 0xD1BB67F1, 0xA6BC5767, 0x3FB506DD, 0x48B2364B]
  ++ [0xD80D2BDA, 0xAF0A1B4C, 0x36034AF6, 0x41047A60, 0xDF60EFC3, 0xA867DF55, 0x316E8EEF, 0x4669BE79]
  ++ [0xCB61B38C, 0xBC66831A, 0x256FD2A0, 0x5268E236, 0xCC0C7795, 0xBB0B4703, 0x220216B9, 0x5505262F]
  ++ [0xC5BA3BBE, 0xB2BD0B28, 0x2BB45A92, 0x5CB36A04, 0xC2D7FFA7, 0xB5D0CF31, 0x2CD99E8B, 0x5BDEAE1D]

/-- Rows 0xC0 to 0xF8 of the table of 10_state.md R20. -/
def romPart3 : List Word :=
  [0x9B64C2B0, 0xEC63F226, 0x756AA39C, 0x026D930A, 0x9C0906A9, 0xEB0E363F, 0x72076785, 0x05005713]
  ++ [0x95BF4A82, 0xE2B87A14, 0x7BB12BAE, 0x0CB61B38, 0x92D28E9B, 0xE5D5BE0D, 0x7CDCEFB7, 0x0BDBDF21]
  ++ [0x86D3D2D4, 0xF1D4E242, 0x68DDB3F8, 0x1FDA836E, 0x81BE16CD, 0xF6B9265B, 0x6FB077E1, 0x18B74777]
  ++ [0x88085AE6, 0xFF0F6A70, 0x66063BCA, 0x11010B5C, 0x8F659EFF, 0xF862AE69, 0x616BFFD3, 0x166CCF45]
  ++ [0xA00AE278, 0xD70DD2EE, 0x4E048354, 0x3903B3C2, 0xA7672661, 0xD06016F7, 0x4969474D, 0x3E6E77DB]
  ++ [0xAED16A4A, 0xD9D65ADC, 0x40DF0B66, 0x37D83BF0, 0xA9BCAE53, 0xDEBB9EC5, 0x47B2CF7F, 0x30B5FFE9]
  ++ [0xBDBDF21C, 0xCABAC28A, 0x53B39330, 0x24B4A3A6, 0xBAD03605, 0xCDD70693, 0x54DE5729, 0x23D967BF]
  ++ [0xB3667A2E, 0xC4614AB8, 0x5D681B02, 0x2A6F2B94, 0xB40BBE37, 0xC30C8EA1, 0x5A05DF1B, 0x2D02EF8D]

/-- The whole table of 10_state.md R20 is the constant `crcRom`, entry by entry. -/
theorem test_crc_rom_is_the_spec_table :
    (List.range 256).map (fun n => crcRom (BitVec.ofNat 8 n)) = romPart0 ++ romPart1 ++ romPart2 ++ romPart3 := by
  decide +kernel

/-! ### One step per command: (status, data) and the status word afterwards, from 95_test_vectors.md -/

theorem test_nop : answer 0x0000000000000000 State.reset = (some (0, 0), 0) := by decide

theorem test_stRd : answer 0x0100000000000000
    { State.reset with crcAcc := some 0xFFFFFFFF, pkCap := some 8, flLen := some 1, flPv := true }
    = (some (0, 0xF00), 0xF00) := by decide

theorem test_stRd_faulted : answer 0x0100000000000000 faulted = (some (0, 0x31), 0x31) := by decide

theorem test_crcInit : (after 0x1000000000000000 State.reset).crcAcc = some 0xFFFFFFFF := by decide

/-- 1.2: the first byte of "IEND". -/
theorem test_crcByte : (after 0x1100000000000049 (crcState 0xFFFFFFFF)).crcAcc = some 0x22FDE946 := by decide +kernel

theorem test_crcByte_unwritten : answer 0x1100000000000041 State.reset = (some (3, 0), 0x31) := by decide

theorem test_crcFinal : answer 0x1200000000000000 (crcState 0x51BD9F7D) = (some (0, 0xAE426082), 0x100) := by
  decide

theorem test_crcTbl : answer 0x13000000000000FF State.reset = (some (0, 0x2D02EF8D), 0) := by decide

/-- 2.1: the check value and the IHDR row. -/
theorem test_crc_sequences : crc [0x31, 0x32, 0x33, 0x34, 0x35, 0x36, 0x37, 0x38, 0x39] = 0xCBF43926
    ∧ crc [0x49, 0x48, 0x44, 0x52, 0, 0, 0, 3, 0, 0, 0, 4, 8, 2, 0, 0, 0] = 0xC44F1250 := by decide +kernel

theorem test_pkInit_largest : answer 0x2000000000000080 State.reset = (some (0, 0x10), 0x200) := by decide

theorem test_pkInit_too_large : answer 0x2000000000000081 State.reset = (some (8, 0), 0x81) := by decide

/-- 2.2: a sample over three bytes. -/
theorem test_pkPut_straddles : answer 0x2100000007FFFF10 (pkState 24 []) = (some (0, 0x17), 0x200)
    ∧ pkBytes (after 0x2100000007FFFF10 (pkState 24 [])) 3 = [0x01, 0xFF, 0xFE] := by
  decide +kernel

/-- 2.2: `off + n = 2^32` does not wrap; `PK_PUT 0, 3, 2` and then `PK_PUT 0, 1, 2` leave C0, by OR. -/
theorem test_pkPut_no_wrap_and_or : answer 0x21FFFFFFFF000101 (pkState 8 []) = (some (8, 0), 0x281)
    ∧ pkBytes (after 0x2100000000000102 (pkState 8 [0xC0])) 1 = [0xC0] := by decide +kernel

theorem test_pkRdb : answer 0x2200000000000002 (pkState 20 [0x0B, 0xEE, 0xF0]) = (some (0, 0xF0), 0x200) := by
  decide

theorem test_pkRdb_past_the_end : answer 0x2200000000000003 (pkState 20 [0x0B, 0xEE, 0xF0]) = (some (7, 0), 0x271) := by
  decide

theorem test_flCfg_largest : answer 0x3000000000001081 State.reset = (some (0, 0), 0xC00) := by decide

/-- 2.6: FL_CFG makes TAG unwritten, so FL_RDT is E_UNWRITTEN. -/
theorem test_flCfg_clears_tag : answer 0x3600000000000000 (after 0x3000000000000410 (outState [1, 1, 1, 1] .sub))
    = (some (9, 0), 0x491) := by decide

theorem test_flWr_last_cell : (after 0x3100000001000F55 State.reset).prevCell 15 = some 0x55 := by decide

theorem test_flWr_past_the_end : answer 0x3100000000001055 State.reset = (some (7, 0), 0x71) := by decide

/-- 2.3 F4: Average with a 9-bit sum. -/
theorem test_flFwd_average : answer 0x3200000000000003 (flState 2 [0xFF, 0xFF, 0x80, 0x01] (some [0xFF, 0xFF, 0xFF, 0]))
      = (some (0, 3), 0xC00)
    ∧ cells (after 0x3200000000000003 (flState 2 [0xFF, 0xFF, 0x80, 0x01] (some [0xFF, 0xFF, 0xFF, 0]))).out 5
      = [some 0x80, some 0x80, some 0x81, some 0x82, none] := by decide

/-- 2.3 F3: Paeth with bpp = 3. -/
theorem test_flFwd_paeth : cells (after 0x3200000000000004
      (flState 3 [0x0A, 0x14, 0x1E, 0x28, 0x32, 0x3C] (some [1, 2, 3, 4, 5, 6]))).out 6
    = [some 0x09, some 0x12, some 0x1B, some 0x1E, some 0x1E, some 0x1E] := by decide

/-- 2.3 F5: the inverse Average uses the reconstructed bytes. -/
theorem test_flInv_average : cells (after 0x3400000000000003
      (flState 1 [0x10, 0xF0, 0x10, 0xF0] (some [0x80, 0x80, 0x80, 0x80]))).out 4
    = [some 0x50, some 0x58, some 0x7C, some 0x6E] := by decide

theorem test_flInv_bad_kind : answer 0x3400000000000007 { State.reset with flLen := some 4, flBpp := 1 }
    = (some (5, 0), 0x451) := by decide

/-- 2.5 row 9: Average is selected. -/
theorem test_flSel_average : answer 0x3300000000000008 (flState 1 [0x76, 0x70, 0xEB] (some [0xFD, 0x77, 0xB0]))
      = (some (0, 3), 0xC00)
    ∧ cells (after 0x3300000000000008 (flState 1 [0x76, 0x70, 0xEB] (some [0xFD, 0x77, 0xB0]))).out 3
      = [some 0xF8, some 0xFA, some 0x5B] := by decide

/-- 2.5 row 2: Grayscale below 8 bits forces None. -/
theorem test_flSel_forced_none : answer 0x3300000000000022 (flState 1 [5, 5, 5, 5] none) = (some (0, 0), 0x400) := by
  decide

theorem test_flRdo : answer 0x3500000000000003 (outState [1, 1, 1, 1] .sub) = (some (0, 1), 0x400) := by decide

theorem test_flRdo_past_the_end : answer 0x3500000000000004 (flState 1 [1, 2, 3, 4] none) = (some (7, 0), 0x471) := by
  decide

theorem test_flRdt : answer 0x3600000000000000 (outState [1, 0xFF, 1, 0] .paeth) = (some (0, 4), 0x400) := by
  decide

theorem test_flShift_out : answer 0x3700000000000001 (outState [1, 1, 1, 1] .sub) = (some (0, 0), 0xC00)
    ∧ cells (after 0x3700000000000001 (outState [1, 1, 1, 1] .sub)).prev 5
      = [some 1, some 1, some 1, some 1, none] := by decide

theorem test_flShift_unwritten : answer 0x3700000000000001 (flState 1 [1, 2, 3, 4] none) = (some (9, 0), 0x491) := by
  decide

/-! ### The gate, reset, and the data paths -/

/-- 2.7: steps 2, 5 and 6. -/
theorem test_gate : answer 0x0000000000000000 faulted = (some (10, 0), 0x31)
    ∧ answer 0x0100000000000001 faulted = (some (10, 0), 0x31)
    ∧ answer 0x0200000000000000 faulted = (some (10, 0), 0x31) := by decide

/-- P4, step 10: reset discards the state and gives no response. -/
theorem test_reset : stateOf (step { faulted with port := [.reset none], crcAcc := some 1, rsp := some ⟨.ok, 1⟩ })
    = State.reset := by decide

/-- 2.4: the twelve rows. -/
theorem test_paeth : [paeth 6 0 2, paeth 0 6 2, paeth 20 0 10, paeth 7 7 7, paeth 200 100 10, paeth 0 0 255,
      paeth 255 255 0, paeth 10 20 15, paeth 100 50 90, paeth 3 4 0, paeth 0 0 0, paeth 255 0 255]
    = [6, 6, 10, 7, 200, 0, 255, 15, 50, 4, 0, 0] := by decide

/-- 2.5: the scores of row 18 and the ties of rows 6 and 14. -/
theorem test_scores : [FilterKind.none, .sub, .up, .average, .paeth].map (fun k => score
      (filt k [0x0B, 0xC7, 0x0D, 0xC8, 0xC8, 0x64] (some [0x0A, 0xC8, 0x0C, 0xC9, 0x0E, 0xCA]) 2))
      = [293, 240, 176, 277, 174]
    ∧ select [0x64, 0x00, 0xC8, 0x32] (some [1, 2, 3, 4]) 1 false 8 = .none
    ∧ select [0x80] none 1 false 8 = .none := by decide

/-! ### Witnesses: the hypotheses of the statements can be met, each clause at a boundary value -/

theorem witness_ResetInputRestoresR25 : ({ faulted with port := [.reset (some 0)] } : State).port = [.reset (some 0)] :=
  rfl

theorem witness_StepRunsDecodedCommand :
    (∃ s w rest i, (s : State).port = .command w :: rest ∧ s.fault = false ∧ decode w = .ok i)
    ∧ ∃ s w rest i, (s : State).port = .command w :: rest ∧ s.fault = true ∧ w = 0x0100000000000000
        ∧ decode w = .ok i :=
  ⟨⟨{ State.reset with port := [.command 0x3600000000000000] }, 0x3600000000000000, [], .flRdt, rfl, rfl, rfl⟩,
   ⟨{ faulted with port := [.command 0x0100000000000000] }, 0x0100000000000000, [], .stRd, rfl, rfl, rfl, rfl⟩⟩

theorem witness_FaultGateTurnsWordsAway : ∃ s w rest, (s : State).port = .command w :: rest ∧ s.fault = true
    ∧ w ≠ 0x0100000000000000 :=
  ⟨{ faulted with port := [.command 0x0100000000000001] }, 0x0100000000000001, [], rfl, rfl, by decide⟩

/-- The first and the last opcode of each of the four ranges. -/
theorem witness_UnassignedOpcodeRaisesIllegal :
    ∀ opc ∈ [0x02, 0x0F, 0x14, 0x1F, 0x23, 0x2F, 0x38, 0xFF], ∃ s w rest, (s : State).port = .command w :: rest
      ∧ s.fault = false ∧ opc = w.toNat / 2 ^ 56
      ∧ ((0x02 ≤ opc ∧ opc ≤ 0x0F) ∨ (0x14 ≤ opc ∧ opc ≤ 0x1F) ∨ (0x23 ≤ opc ∧ opc ≤ 0x2F)
        ∨ (0x38 ≤ opc ∧ opc ≤ 0xFF)) := by
  intro opc h
  refine ⟨{ State.reset with port := [.command (BitVec.ofNat 64 (opc * 2 ^ 56))] }, BitVec.ofNat 64 (opc * 2 ^ 56), [],
    rfl, rfl, ?_⟩
  revert opc; decide

/-- Bit 8 of CRC_BYTE, just above its field, and bit 55 of NOP. -/
theorem witness_ReservedBitRaisesReserved : ∀ c ∈ [(0x1100000000000100, Op.crcByte, 8), (0x0080000000000000, Op.nop, 55)],
    ∃ s w rest, ∃ o : Op, ∃ k : Nat, c = (w, o, k) ∧ (s : State).port = .command w :: rest ∧ s.fault = false
      ∧ w.toNat / 2 ^ 56 = o.opc.toNat ∧ k < 56 ∧ w.getLsbD k = true
      ∧ ∀ r ∈ r46Fields o.format, ¬(r.2 ≤ k ∧ k ≤ r.1) := by
  intro c h
  refine ⟨{ State.reset with port := [.command c.1] }, c.1, [], c.2.1, c.2.2, rfl, rfl, rfl, ?_⟩
  revert c; decide

theorem witness_OneResponsePerCommand :
    ({ State.reset with port := [.command 0] } : State).port = .command 0 :: [] := rfl

theorem witness_EncodeOfDecode : decode 0x3300000000000022 = .ok (.flSel true 2) := rfl

theorem witness_StatusReadAlwaysRuns :
    (∃ s rest, (s : State).port = .command 0x0100000000000000 :: rest)
    ∧ ∃ s w rest, (s : State).port = .command w :: rest ∧ w.toNat / 2 ^ 56 = 0x01 ∧ w ≠ 0x0100000000000000 :=
  ⟨⟨{ faulted with port := [.command 0x0100000000000000] }, [], rfl⟩,
   ⟨{ faulted with port := [.command 0x0100000000000001] }, 0x0100000000000001, [], rfl, by decide, by decide⟩⟩

theorem witness_CrcAccumulator : (∃ s acc, (s : State).crcAcc = some acc) ∧ ∃ s, (s : State).crcAcc = none :=
  ⟨⟨crcState 1, 1, rfl⟩, ⟨State.reset, rfl⟩⟩

theorem witness_CrcSequenceRespondsCrc : ∃ s bytes rest, (s : State).fault = false
    ∧ s.port = commandInputs (crc32Commands bytes) ++ rest :=
  ⟨{ State.reset with port := commandInputs (crc32Commands [0x49]) ++ [.command 0] }, [0x49], [.command 0], rfl, rfl⟩

theorem witness_CrcContinuesWithoutInit : ∃ s : State, ∃ first more : List Byte, s.fault = false
    ∧ s.port = commandInputs (crc32Commands first ++ more.map .crcByte ++ [.crcFinal]) :=
  ⟨{ State.reset with port := commandInputs (crc32Commands [0x49] ++ [0x45].map .crcByte ++ [.crcFinal]) },
    [0x49], [0x45], rfl, rfl⟩

/-- The last capacity that fits, 128 bits in 16 bytes, and the first that does not. -/
theorem witness_PkInitZeroesBuffer : ((128#32).toNat + 7) / 8 ≤ State.reset.cfg.pkMaxBytes
    ∧ ((129#32).toNat + 7) / 8 > State.reset.cfg.pkMaxBytes := by decide

/-- `n` 0, 1, 16 and 17, and a sample that ends at the capacity or one bit past it. -/
theorem witness_PkPutOrsSample : State.reset.pkCap = none ∧ (pkState 17 []).pkCap = some 17
    ∧ ((0#5).toNat = 0 ∨ 17 ≤ (0#5).toNat) ∧ ((17#5).toNat = 0 ∨ 17 ≤ (17#5).toNat)
    ∧ (1 ≤ (16#5).toNat ∧ (16#5).toNat ≤ 16 ∧ (2#32).toNat + (16#5).toNat > (17#32).toNat)
    ∧ (1 ≤ (16#5).toNat ∧ (16#5).toNat ≤ 16 ∧ (1#32).toNat + (16#5).toNat ≤ (17#32).toNat)
    ∧ (1 ≤ (1#5).toNat ∧ (1#5).toNat ≤ 16 ∧ (16#32).toNat + (1#5).toNat ≤ (17#32).toNat) := by decide

theorem witness_PkRdbRespondsByte : State.reset.pkCap = none ∧ (pkState 9 []).pkCap = some 9
    ∧ (2#32).toNat ≥ ((9#32).toNat + 7) / 8 ∧ (1#32).toNat < ((9#32).toNat + 7) / 8 := by decide

theorem witness_PkSamplesLandInOrder : ∃ s cap off, ∃ n : BitVec 5, ∃ vals : List (BitVec 16), ∃ rest, (s : State).fault = false
    ∧ s.pkCap = some cap ∧ 1 ≤ n.toNat ∧ n.toNat ≤ 16 ∧ off + vals.length * n.toNat ≤ cap.toNat
    ∧ s.port = commandInputs (vals.mapIdx fun j v => .pkPut (BitVec.ofNat 32 (off + j * n.toNat)) v n) ++ rest :=
  ⟨{ pkState 7 [] with
      port := commandInputs ([0#16, 3, 1].mapIdx fun j v => .pkPut (BitVec.ofNat 32 (1 + j * 2)) v 2) ++ [] },
    7, 1, 2, [0, 3, 1], [], rfl, rfl, by decide, by decide, by decide, rfl⟩

/-- 2.4: the rows (6, 0, 2), (0, 6, 2) and (20, 0, 10), one for each case, the first two with a tie. -/
theorem witness_PaethPicksNearest :
    let d := fun (a b c v : Byte) => ((a.toNat : Int) + b.toNat - c.toNat - v.toNat).natAbs
    (d 6 0 2 6 ≤ d 6 0 2 0 ∧ d 6 0 2 6 ≤ d 6 0 2 2)
    ∧ (¬(d 0 6 2 0 ≤ d 0 6 2 6 ∧ d 0 6 2 0 ≤ d 0 6 2 2) ∧ d 0 6 2 6 ≤ d 0 6 2 2)
    ∧ (¬(d 20 0 10 20 ≤ d 20 0 10 0 ∧ d 20 0 10 20 ≤ d 20 0 10 10) ∧ ¬d 20 0 10 0 ≤ d 20 0 10 10) := by decide

theorem witness_ForwardFilterBytes : 3 < ([0xFF, 0xFF, 0x80, 0x01] : List Byte).length := by decide

theorem witness_InverseFilterBytes : 1 ≤ 1 ∧ 3 < ([0x10, 0xF0, 0x10, 0xF0] : List Byte).length := by decide

/-- bpp 1 and 8, with and without a previous row. -/
theorem witness_InverseUndoesForward : ∀ c ∈ [(1, none), (8, some [1, 2, 3]), (8, none), (1, some [1, 2, 3])],
    1 ≤ c.1 ∧ c.1 ≤ 8 ∧ ∀ r : List Byte, c.2 = some r → r.length = ([7, 8, 9] : List Byte).length := by
  intro c h
  simp only [List.mem_cons, List.not_mem_nil, or_false] at h
  rcases h with rfl | rfl | rfl | rfl <;> refine ⟨by decide, by decide, ?_⟩ <;> rintro r ⟨⟩ <;> rfl

theorem witness_MissingNeighboursCollapseFilters :
    1 < ([7, 8, 9] : List Byte).length ∧ 1 < 2 := by decide

/-- Depth 7 is forced, depth 8 is not, and Average (3) has three earlier kinds. -/
theorem witness_SelectionIsEarliestMinimum : (true = true ∧ 7 < 8) ∧ ¬(true = true ∧ 8 < 8)
    ∧ FilterKind.none.word.toNat
      < (select [0x76, 0x70, 0xEB] (some [0xFD, 0x77, 0xB0]) 1 false 8).word.toNat := by decide

/-- A state whose rows are whole, with and without a previous row. -/
theorem witness_RowsAre : RowsAre (flState 1 [1, 2] none) 2 [1, 2] none
    ∧ RowsAre (flState 1 [1, 2] (some [3, 4])) 2 [1, 2] (some [3, 4]) := by
  refine ⟨⟨rfl, by decide, .inl ⟨rfl, rfl⟩⟩, ⟨rfl, by decide, .inr ⟨rfl, [3, 4], rfl, rfl, by decide⟩⟩⟩

/-- The last cell of CUR missing, and the last cell of PREV missing with FL_PV = 1. -/
theorem witness_RowMissing : RowMissing { flState 1 [1, 2] none with cur := row [1] } 2
    ∧ RowMissing (flState 1 [1, 2] (some [3])) 2 :=
  ⟨.inl ⟨1, by decide, by decide⟩, .inr ⟨rfl, 1, by decide, by decide⟩⟩

/-- Length 1 and ROW_MAX with bpp 1 and 8; length 0, ROW_MAX + 1 and bpp 0 and 9 are refused. -/
theorem witness_FlCfgConfigures :
    (∀ c ∈ [(1, 1), (16, 8)], 1 ≤ c.1 ∧ c.1 ≤ State.reset.cfg.rowMax ∧ 1 ≤ c.2 ∧ c.2 ≤ 8)
    ∧ ∀ c ∈ [(0, 1), (17, 1), (4, 0), (4, 9)], ¬(1 ≤ c.1 ∧ c.1 ≤ State.reset.cfg.rowMax ∧ 1 ≤ c.2 ∧ c.2 ≤ 8) := by
  decide

theorem witness_FlWrWritesOneCell : (15#16).toNat < State.reset.cfg.rowMax ∧ (16#16).toNat ≥ State.reset.cfg.rowMax := by
  decide

/-- FL_FWD and FL_INV: kinds 0 and 4 name a filter, 5 and 7 do not. -/
theorem witness_FlFwdFiltersRow : State.reset.flLen = none ∧ (flState 1 [1, 2] none).flLen = some 2
    ∧ 4 < (5#3).toNat ∧ 4 < (7#3).toNat ∧ (4#3).toNat ≤ 4 ∧ FilterKind.paeth.word.toNat = (4#3).toNat
    ∧ FilterKind.none.word.toNat = (0#3).toNat := by decide

/-- FL_SEL: depths 1 and 16 are legal, 0, 3 and 31 are not. -/
theorem witness_FlSelFiltersSelected : (∀ d ∈ [1#5, 16#5], d.toNat ∈ [1, 2, 4, 8, 16])
    ∧ ∀ d ∈ [0#5, 3#5, 31#5], d.toNat ∉ [1, 2, 4, 8, 16] := by decide

theorem witness_FlRdoRespondsOutput : State.reset.flLen = none ∧ (outState [1, 1, 1, 1] .sub).flLen = some 4
    ∧ (4#16).toNat ≥ (4#16).toNat
    ∧ ((3#16).toNat < (4#16).toNat ∧ (flState 1 [1, 2, 3, 4] none).outCell 3 = none)
    ∧ (outState [1, 1, 1, 1] .sub).outCell 3 = some 1 := by decide

theorem witness_FlRdtRespondsTag : (flState 1 [1] none).tag = none ∧ (outState [1, 1, 1, 1] .sub).tag = some .sub := by
  decide

/-- The last cell of the source missing, and no cell missing. -/
theorem witness_FlShiftMakesPreviousRow : (∃ i, i < 2 ∧ ({ flState 1 [1, 2] none with cur := row [1] } : State).curCell i = none)
    ∧ (∀ i, i < 4 → (outState [1, 1, 1, 1] .sub).outCell i ≠ none)
    ∧ ∀ i, i < 2 → (flState 1 [1, 2] none).curCell i ≠ none :=
  ⟨⟨1, by decide, by decide⟩, by decide, by decide⟩

/-- F2's Sub row without a previous row, where the two PREV buffers differ, and F1's Paeth row with one. -/
theorem witness_FlInvReconstructsFlFwdRow : ∀ pv : Bool, ∃ s t u v, ∃ kind : BitVec 3, ∃ len d e,
    (s : State).flLen = some len ∧ s.flPv = pv ∧ 1 ≤ s.flBpp.toNat ∧ s.flBpp.toNat ≤ 8
    ∧ exec (.flFwd kind) s = .next t ∧ t.rsp = some { status := .ok, data := d }
    ∧ u.flLen = s.flLen ∧ u.flBpp = s.flBpp ∧ u.flPv = s.flPv
    ∧ (s.flPv = true → ∀ i, i < len.toNat → u.prevCell i = s.prevCell i) ∧ (s.flPv = false → u.prevCell 0 ≠ s.prevCell 0)
    ∧ (∀ i, i < len.toNat → u.curCell i = t.outCell i)
    ∧ exec (.flInv kind) u = .next v ∧ v.rsp = some { status := .ok, data := e } := by
  rintro (_ | _)
  · refine ⟨flState 1 [0x0C, 0x19, 0xFF, 0x00] none, _, { flState 1 [0x0C, 0x0D, 0xE6, 0x01] none with prev := row [9] },
      _, 1, 4, 1, 1, rfl, rfl, by decide, by decide, rfl, ?_, rfl, rfl, rfl, ?_, ?_, ?_, rfl, ?_⟩ <;> decide
  · refine ⟨flState 1 [0x0C, 0x19, 0xFF, 0x00] (some [0x0A, 0x14, 0x1E, 0x28]), _,
      flState 1 [0x02, 0x05, 0xE1, 0x01] (some [0x0A, 0x14, 0x1E, 0x28]),
      _, 4, 4, 4, 4, rfl, rfl, by decide, by decide, rfl, ?_, rfl, rfl, rfl, ?_, ?_, ?_, rfl, ?_⟩ <;> decide

/-- Two states that agree on the rows and differ elsewhere. -/
theorem witness_FlSelDependsOnRowsOnly : ∃ s s' t t', ∃ gray depth len d, (s : State).flLen = some len
    ∧ (s' : State).flLen = some len ∧ s.flBpp = s'.flBpp ∧ s.flPv = s'.flPv
    ∧ (∀ i, i < len.toNat → s.curCell i = s'.curCell i)
    ∧ (s.flPv = true → ∀ i, i < len.toNat → s.prevCell i = s'.prevCell i)
    ∧ exec (.flSel gray depth) s = .next t ∧ exec (.flSel gray depth) s' = .next t'
    ∧ t.rsp = some { status := .ok, data := d } ∧ s.crcAcc ≠ s'.crcAcc := by
  refine ⟨flState 1 [5, 5, 5, 5] (some [0, 0, 0, 0]), { flState 1 [5, 5, 5, 5] (some [0, 0, 0, 0]) with crcAcc := some 1 },
    _, _, false, 8, 4, 1, rfl, rfl, rfl, rfl, ?_, ?_, rfl, rfl, ?_, ?_⟩ <;> decide

/-- ST_RD among the inputs of a faulted state, no reset. -/
theorem witness_FaultStateLeftOnlyByReset : ∃ s, (s : State).fault = true ∧ ∀ p, HostInput.reset p ∉ s.port :=
  ⟨{ faulted with port := [.command 0, .command 0x0100000000000000] }, rfl, by simp⟩

/-- One command of each unit, on two states that agree on that unit and differ on another. -/
theorem witness_UnitsAreIndependent :
    (∃ s s' t t', (s : State).cfg = s'.cfg ∧ exec (.crcByte 1) s = .next t ∧ exec (.crcByte 1) s' = .next t'
      ∧ Instr.op (.crcByte 1) ∈ [Op.crcInit, .crcByte, .crcFinal, .crcTbl] ∧ s.crcAcc = s'.crcAcc ∧ s.pkCap ≠ s'.pkCap)
    ∧ (∃ s s' t t', (s : State).cfg = s'.cfg ∧ exec (.pkRdb 0) s = .next t ∧ exec (.pkRdb 0) s' = .next t'
      ∧ Instr.op (.pkRdb 0) ∈ [Op.pkInit, .pkPut, .pkRdb] ∧ s.pkCap = s'.pkCap ∧ s.pkBuf = s'.pkBuf ∧ s.tag ≠ s'.tag)
    ∧ ∃ s s' t t', (s : State).cfg = s'.cfg ∧ exec .flRdt s = .next t ∧ exec .flRdt s' = .next t'
      ∧ Instr.op .flRdt ∈ [Op.flCfg, .flWr, .flFwd, .flSel, .flInv, .flRdo, .flRdt, .flShift]
      ∧ s.flLen = s'.flLen ∧ s.flBpp = s'.flBpp ∧ s.flPv = s'.flPv ∧ s.cur = s'.cur ∧ s.prev = s'.prev
      ∧ s.out = s'.out ∧ s.tag = s'.tag ∧ s.crcAcc ≠ s'.crcAcc :=
  ⟨⟨crcState 7, { crcState 7 with pkCap := some 8 }, _, _, rfl, rfl, rfl, by decide, rfl, by decide⟩,
   ⟨pkState 8 [1], { pkState 8 [1] with tag := some .up }, _, _, rfl, rfl, rfl, by decide, rfl, rfl, by decide⟩,
   ⟨outState [1] .sub, { outState [1] .sub with crcAcc := some 1 }, _, _, rfl, rfl, rfl, by decide, rfl, rfl, rfl, rfl,
    rfl, rfl, rfl, by decide⟩⟩

/-- Each element is changed by some command. -/
theorem witness_ElementsWrittenByTheirCommands :
    (stateOf (exec .crcInit State.reset)).crcAcc ≠ State.reset.crcAcc
    ∧ (stateOf (exec (.pkInit 8) State.reset)).pkCap ≠ State.reset.pkCap
    ∧ (stateOf (exec (.pkPut 0 1 1) (pkState 8 []))).pkBuf ≠ (pkState 8 []).pkBuf
    ∧ (stateOf (exec (.flCfg 1 1 true) State.reset)).flLen ≠ State.reset.flLen
    ∧ (stateOf (exec (.flCfg 1 1 true) State.reset)).flBpp ≠ State.reset.flBpp
    ∧ (stateOf (exec (.flCfg 1 1 true) State.reset)).flPv ≠ State.reset.flPv
    ∧ (stateOf (exec (.flWr .cur 0 1) State.reset)).cur ≠ State.reset.cur
    ∧ (stateOf (exec (.flWr .prev 0 1) State.reset)).prev ≠ State.reset.prev
    ∧ (stateOf (exec (.flFwd 0) (flState 1 [1] none))).out ≠ (flState 1 [1] none).out
    ∧ (stateOf (exec (.flFwd 0) (flState 1 [1] none))).tag ≠ (flState 1 [1] none).tag := by decide

theorem witness_ReadsHaveNoSideEffects : ∃ i s t, ∃ d : Word,
    i.op ∈ [Op.nop, .stRd, .crcFinal, .crcTbl, .pkRdb, .flRdo, .flRdt]
    ∧ exec i s = .next t ∧ t.rsp = some { status := .ok, data := d } :=
  ⟨.flRdo 3, outState [1, 1, 1, 1] .sub, _, 1, by decide, rfl, by decide⟩

theorem witness_RepeatedCommandsAreIdempotent : ∃ i s t,
    i.op ∈ [Op.crcInit, .pkInit, .flWr, .flCfg, .flFwd, .flInv, .flSel, .flShift]
    ∧ (s : State).BuffersCanonical ∧ exec i s = .next t :=
  ⟨.flShift .out, outState [1, 1, 1, 1] .sub, _, by decide, ⟨by decide, by decide, by decide, by decide⟩, rfl⟩

theorem witness_FlBppNotReadBeforeFlCfg : ∃ t, State.reset.flLen = none
    ∧ exec (.flCfg 4 1 false) State.reset = .next t ∧ t.flLen ≠ none := ⟨_, rfl, rfl, by decide⟩

/-- Two buffers that differ past the capacity only. -/
theorem witness_PkBytesPastCapacityNotRead : ∃ s m t, (∀ cap, (s : State).pkCap = some cap → ∀ j,
      j < (cap.toNat + 7) / 8 → s.pkByte j = pkRead m j)
    ∧ exec (.pkRdb 1) s = .next t ∧ s.pkByte 2 ≠ pkRead m 2 :=
  ⟨pkState 9 [1, 2], Memory.writeFrom pkUnlisted [] 0 [1, 2, 3], _, by rintro _ ⟨⟩; decide, rfl, by decide⟩

/-- A state that meets the invariant with every unit in use, one clause at a time: 20 bits packed, a row of 4 bytes
filtered. -/
theorem witness_StepKeepsInvariant : ∃ s t : State, s.Inv ∧ s.tag ≠ none ∧ s.pkCap ≠ none ∧ step s = .next t := by
  refine ⟨{ outState [1, 1, 1, 1] .sub with
      crcAcc := some 5, pkCap := some 20, pkBuf := [(0, 0x0B), (1, 0xEE), (2, 0xF0)], port := [.command 0] }, _,
    ⟨by decide, ⟨by decide, by decide⟩, ⟨by decide, by decide, by decide, by decide⟩,
      ⟨by decide, by decide, by decide, by decide⟩, ⟨?_, ?_⟩, ?_, ?_⟩, by decide, by decide, rfl⟩
  · rintro _ ⟨⟩; decide
  · rintro _ ⟨⟩; decide
  · rintro _ ⟨⟩ k h1 h2
    have h3 : ∀ k < 24, 20 ≤ k → pkReadBit [(0, 0x0B), (1, 0xEE), (2, 0xF0)] k = false := by decide
    exact h3 k h2 h1
  · refine ⟨4, rfl, fun i => ?_⟩
    show ((row [1, 1, 1, 1]).read rowUnlisted i).isSome = true ↔ i < 4
    rw [row, Memory.read_writeFrom]
    by_cases h : i < 4 <;> simp [h, Memory.read, Memory.find, rowUnlisted]

/-- `FL_CFG 65535, 15, HASPREV`: the largest numbers of two fields and a symbol of the third. -/
theorem witness_AssemblerRefusesMisfits : ∃ i, assemble ⟨.flCfg, [.num 65535, .num 15, .sym .HASPREV]⟩ = some i
    ∧ Op.flCfg.operandsStandFor [.num 65535, .num 15, .sym .HASPREV] [65535, 15, 1] := by
  refine ⟨_, rfl, rfl, rfl, fun k f place x v h1 h2 h3 h4 => ?_⟩
  match k with
  | 0 => cases h1; cases h2; cases h3; cases h4; exact ⟨rfl, by decide⟩
  | 1 => cases h1; cases h2; cases h3; cases h4; exact ⟨rfl, by decide⟩
  | 2 => cases h1; cases h2; cases h3; cases h4; show (Symbol.HASPREV, 1) ∈ r54Symbols .pv; decide
  | _ + 3 => cases h1

/-- The last chain that ends below 2^32. -/
theorem witness_PseudoInstructionsExpand : 0xFFFFFFF9 + ([0#16, 3, 1] : List (BitVec 16)).length * (2#5).toNat < 2 ^ 32 := by
  decide

end Sys2Proof.Tests
end

section
/-! The state layer (10_state.md): the reset values and the status word. -/

namespace Sys2Proof.Proofs

open Sys2Proof Sys2Proof.Machine

/-- A buffer that lists nothing has only unwritten cells (R25). -/
@[simp] theorem read_rowUnlisted_nil (i : Nat) : Memory.read rowUnlisted [] i = none := by
  simp [Memory.read, rowUnlisted]

@[simp] theorem curCell_reset (i : Nat) : State.reset.curCell i = none := read_rowUnlisted_nil i

@[simp] theorem prevCell_reset (i : Nat) : State.reset.prevCell i = none := read_rowUnlisted_nil i

@[simp] theorem outCell_reset (i : Nat) : State.reset.outCell i = none := read_rowUnlisted_nil i

/-- Settles O1: the values of R25 are the fields of `State.reset`, and its row buffers list no cell. -/
theorem resetValuesAreR25 : Obligations.ResetValuesAreR25 :=
  ⟨rfl, rfl, rfl, rfl, rfl, rfl, rfl, curCell_reset, prevCell_reset, outCell_reset⟩

/-- Concatenation as place value: the high part counts in units of the low part's size. -/
theorem toNat_append_eq_add {m n : Nat} (x : BitVec m) (y : BitVec n) :
    (x ++ y).toNat = x.toNat * 2 ^ n + y.toNat := by
  rw [BitVec.toNat_append, ← Nat.shiftLeft_add_eq_or_of_lt y.isLt, Nat.shiftLeft_eq]

/-- Settles O15: the status word is a concatenation of fields, so its number is the sum of their place values; the
zero fields add nothing. -/
theorem statusWordLayout : Obligations.StatusWordLayout := by
  intro s
  simp only [statusWord, toNat_append_eq_add, BitVec.toNat_ofBool, BitVec.toNat_ofNat]
  omega

end Sys2Proof.Proofs
end

section
/-! The encoder (30_encoding.md R46): a word is the concatenation of its fields, so its number is the sum of their
place values. -/

namespace Sys2Proof.Proofs

/-- The number of a word with the opcode above reserved bits above one operand at bit 0. -/
theorem toNat_append_zero_append {m n : Nat} (opc : BitVec m) (z : Nat) (x : BitVec n) :
    (opc ++ 0#z ++ x).toNat = opc.toNat * 2 ^ (z + n) + x.toNat := by
  rw [toNat_append_eq_add, toNat_append_eq_add, BitVec.toNat_ofNat, Nat.zero_mod, Nat.add_zero, Nat.mul_assoc,
    ← Nat.pow_add]

/-- R48: the number of `sel`. -/
theorem toNat_selBit (sel : RowSel) : sel.bit.toNat = if sel = .prev then 1 else 0 := by
  cases sel with
  | cur => rfl
  | prev => rfl

/-- R48: the number of `src`. -/
theorem toNat_srcBit (src : ShiftSrc) : src.bit.toNat = if src = .out then 1 else 0 := by
  cases src with
  | cur => rfl
  | out => rfl

/-- Format P of R46. -/
theorem toNat_encode_pkPut (off : BitVec 32) (val : BitVec 16) (n : BitVec 5) :
    (encode (.pkPut off val n)).toNat = 0x21 * 2 ^ 56 + off.toNat * 2 ^ 24 + val.toNat * 2 ^ 8 + n.toNat := by
  show (Op.pkPut.opc ++ off ++ val ++ 0#3 ++ n).toNat = _
  simp only [Op.opc, toNat_append_eq_add, BitVec.reduceToNat]
  omega

/-- Format C of R46. -/
theorem toNat_encode_flCfg (len : BitVec 16) (bpp : BitVec 4) (pv : Bool) :
    (encode (.flCfg len bpp pv)).toNat
      = 0x30 * 2 ^ 56 + len.toNat * 2 ^ 8 + bpp.toNat * 2 ^ 4 + pv.toNat := by
  show (Op.flCfg.opc ++ 0#32 ++ len ++ bpp ++ 0#3 ++ BitVec.ofBool pv).toNat = _
  simp only [Op.opc, toNat_append_eq_add, BitVec.reduceToNat, BitVec.toNat_ofBool]
  omega

/-- Format R of R46. -/
theorem toNat_encode_flWr (sel : RowSel) (idx : BitVec 16) (byte : BitVec 8) :
    (encode (.flWr sel idx byte)).toNat
      = 0x31 * 2 ^ 56 + (if sel = .prev then 1 else 0) * 2 ^ 24 + idx.toNat * 2 ^ 8 + byte.toNat := by
  show (Op.flWr.opc ++ 0#31 ++ sel.bit ++ idx ++ byte).toNat = _
  simp only [Op.opc, toNat_append_eq_add, BitVec.reduceToNat, toNat_selBit]
  omega

/-- Format S of R46. -/
theorem toNat_encode_flSel (gray : Bool) (depth : BitVec 5) :
    (encode (.flSel gray depth)).toNat = 0x33 * 2 ^ 56 + gray.toNat * 2 ^ 5 + depth.toNat := by
  show (Op.flSel.opc ++ 0#50 ++ BitVec.ofBool gray ++ depth).toNat = _
  simp only [Op.opc, toNat_append_eq_add, BitVec.reduceToNat, BitVec.toNat_ofBool]
  omega

/-- Format X of R46. -/
theorem toNat_encode_flShift (src : ShiftSrc) :
    (encode (.flShift src)).toNat = 0x37 * 2 ^ 56 + (if src = .out then 1 else 0) := by
  rw [← toNat_srcBit]
  exact toNat_append_zero_append Op.flShift.opc 55 src.bit

/-- Settles O12, format by format: the words of format Z are constants, formats B, W, K, I and X hold one operand at
bit 0, and formats P, C, R and S are the sums of their lemmas above. -/
theorem encodingLayouts : Obligations.EncodingLayouts := by
  unfold Obligations.EncodingLayouts
  exact ⟨rfl, rfl, rfl,
    toNat_append_zero_append Op.crcByte.opc 48, rfl,
    toNat_append_zero_append Op.crcTbl.opc 48,
    toNat_append_zero_append Op.pkInit.opc 24, toNat_encode_pkPut,
    toNat_append_zero_append Op.pkRdb.opc 24,
    toNat_encode_flCfg, toNat_encode_flWr,
    toNat_append_zero_append Op.flFwd.opc 53, toNat_encode_flSel,
    toNat_append_zero_append Op.flInv.opc 53,
    toNat_append_zero_append Op.flRdo.opc 40, rfl, toNat_encode_flShift⟩

end Sys2Proof.Proofs
end

section
/-! The CRC unit (40_crc.md): what CRC_INIT, CRC_BYTE and CRC_FINAL do, by whether the accumulator is written. -/

namespace Sys2Proof.Proofs

open Sys2Proof.Machine

/-- R60. -/
theorem exec_crcInit (s : State) : exec .crcInit s = .next ((s.withCrcAcc 0xFFFFFFFF).responded 0) := rfl

/-- R61 on a written accumulator. -/
theorem exec_crcByte_of_written {s : State} {acc : Word} (h : s.crcAcc = some acc) (b : Byte) :
    exec (.crcByte b) s = .next ((s.withCrcAcc (crcUpdate acc b)).responded 0) := by
  simp [exec, execCrcByte, h]

/-- R61 on an unwritten accumulator. -/
theorem exec_crcByte_of_unwritten {s : State} (h : s.crcAcc = none) (b : Byte) :
    exec (.crcByte b) s = .next (s.raised .notInit) := by
  simp [exec, execCrcByte, h]

/-- R62 on a written accumulator. -/
theorem exec_crcFinal_of_written {s : State} {acc : Word} (h : s.crcAcc = some acc) :
    exec .crcFinal s = .next (s.responded (acc ^^^ 0xFFFFFFFF)) := by
  simp [exec, execCrcFinal, h]

/-- R62 on an unwritten accumulator. -/
theorem exec_crcFinal_of_unwritten {s : State} (h : s.crcAcc = none) :
    exec .crcFinal s = .next (s.raised .notInit) := by
  simp [exec, execCrcFinal, h]

/-- The table index of R56, taken from the 32-bit xor: its low byte is the xor of the low bytes. -/
theorem setWidth_xor_and_lowByte (acc : Word) (b : Byte) :
    ((acc ^^^ b.setWidth 32) &&& 0xFF).setWidth 8 = acc.setWidth 8 ^^^ b := by
  have hmask : (0xFF : Word).setWidth 8 = BitVec.allOnes 8 := by decide
  rw [BitVec.setWidth_and, hmask, BitVec.and_allOnes, BitVec.setWidth_xor,
    BitVec.setWidth_setWidth_of_le _ (by decide), BitVec.setWidth_eq]

/-- R56 in the spec's form, with the index masked from the 32-bit xor. -/
theorem crcUpdate_eq_masked (acc : Word) (b : Byte) :
    crcUpdate acc b = crcRom (((acc ^^^ b.setWidth 32) &&& 0xFF).setWidth 8) ^^^ (acc >>> 8) := by
  rw [setWidth_xor_and_lowByte, crcUpdate]

/-- Settles O18: the rule reads nothing, so it has one case. -/
theorem crcInitSetsAccumulator : Obligations.CrcInitSetsAccumulator :=
  exec_crcInit

/-- Settles O19, by whether the accumulator is written; the model's index is the masked one of R56. -/
theorem crcByteFoldsByte : Obligations.CrcByteFoldsByte := by
  refine fun s b => ⟨fun acc h => ?_, fun h => exec_crcByte_of_unwritten h b⟩
  rw [← crcUpdate_eq_masked]
  exact exec_crcByte_of_written h b

/-- Settles O20, by whether the accumulator is written. -/
theorem crcFinalRespondsCrc : Obligations.CrcFinalRespondsCrc :=
  fun _ => ⟨fun _ h => exec_crcFinal_of_written h, exec_crcFinal_of_unwritten⟩

end Sys2Proof.Proofs
end

section
/-! The bit packer (41_bitpacker.md): the errors of PK_PUT and PK_RDB in the order of their checks, and what `put`
does inside and outside its bit range. -/

namespace Sys2Proof.Proofs

open Sys2Proof.Machine

/-! ### The buffer after `put` (R64) -/

/-- Inside its range `put` ORs the sample in, most significant bit first (R28). -/
theorem pkReadBit_put_inside (m : Memory) (off : Nat) (val : BitVec 16) {n j : Nat} (hj : j < n) :
    pkReadBit (put m off val n) (off + j) = (pkReadBit m (off + j) || val.getLsbD (n - 1 - j)) := by
  have hin : off ≤ off + j ∧ off + j < off + n := by omega
  rw [pkReadBit_put, decide_eq_true hin, Bool.true_and, Nat.add_sub_cancel_left]

/-- Outside its range `put` leaves every bit. -/
theorem pkReadBit_put_outside (m : Memory) (val : BitVec 16) {off n k : Nat} (hk : k < off ∨ off + n ≤ k) :
    pkReadBit (put m off val n) k = pkReadBit m k := by
  have hout : ¬(off ≤ k ∧ k < off + n) := by omega
  rw [pkReadBit_put, decide_eq_false hout, Bool.false_and, Bool.or_false]

/-- A byte that holds no bit of the range keeps all its bits. -/
theorem pkRead_put_outside (m : Memory) (val : BitVec 16) {off n a : Nat}
    (ha : a < off / 8 ∨ (off + n - 1) / 8 < a) : pkRead (put m off val n) a = pkRead m a :=
  pkRead_eq_of_bits _ _ a fun _ hk => pkReadBit_put_outside m val (by omega)

/-! ### PK_PUT (R67) -/

section
variable {s : State} {off cap : BitVec 32} {n : BitVec 5}

theorem exec_pkPut_of_unwritten (h : s.pkCap = none) (off : BitVec 32) (val : BitVec 16) (n : BitVec 5) :
    exec (.pkPut off val n) s = .next (s.raised .notInit) := by
  simp only [exec, execPkPut, h, raise_eq]

theorem exec_pkPut_of_illegalWidth (h : s.pkCap = some cap) (hn : n.toNat < 1 ∨ n.toNat > 16) (off : BitVec 32)
    (val : BitVec 16) : exec (.pkPut off val n) s = .next (s.raised .operand) := by
  simp only [exec, execPkPut, h, if_pos hn, raise_eq]

theorem exec_pkPut_of_pastCapacity (h : s.pkCap = some cap) (hn : ¬(n.toNat < 1 ∨ n.toNat > 16))
    (hc : off.toNat + n.toNat > cap.toNat) (val : BitVec 16) :
    exec (.pkPut off val n) s = .next (s.raised .capacity) := by
  simp only [exec, execPkPut, h, if_neg hn, if_pos hc, raise_eq]

theorem exec_pkPut_of_fits (h : s.pkCap = some cap) (hn : ¬(n.toNat < 1 ∨ n.toNat > 16))
    (hc : ¬off.toNat + n.toNat > cap.toNat) (val : BitVec 16) :
    exec (.pkPut off val n) s
      = .next ((s.withPkBuf (put s.pkBuf off.toNat val n.toNat)).responded
          (BitVec.ofNat 32 (off.toNat + n.toNat))) := by
  simp only [exec, execPkPut, h, if_neg hn, if_neg hc, respond_eq]

end

/-- Settles O26, by the checks of R67 in their order; when all pass, the buffer is that of `put`, whose bits and
bytes are given above. -/
theorem pkPutOrsSample : Obligations.PkPutOrsSample := by
  refine fun s off val n => ⟨fun h => exec_pkPut_of_unwritten h off val n, fun cap h => ⟨?_, ?_, ?_⟩⟩
  · intro hn
    exact exec_pkPut_of_illegalWidth h (by omega) off val
  · intro h1 h16 hc
    exact exec_pkPut_of_pastCapacity h (by omega) hc val
  · intro h1 h16 hc
    exact ⟨_, exec_pkPut_of_fits h (by omega) (by omega) val, rfl,
      fun _ hj => pkReadBit_put_inside s.pkBuf off.toNat val hj,
      fun _ hk => pkReadBit_put_outside s.pkBuf val hk,
      fun _ ha => pkRead_put_outside s.pkBuf val ha⟩

/-! ### PK_RDB (R68) -/

section
variable {s : State} {idx cap : BitVec 32}

theorem exec_pkRdb_of_unwritten (h : s.pkCap = none) (idx : BitVec 32) :
    exec (.pkRdb idx) s = .next (s.raised .notInit) := by
  simp only [exec, execPkRdb, h, raise_eq]

theorem exec_pkRdb_of_outOfRange (h : s.pkCap = some cap) (hi : idx.toNat ≥ ceil8 cap.toNat) :
    exec (.pkRdb idx) s = .next (s.raised .range) := by
  simp only [exec, execPkRdb, h, if_pos hi, raise_eq]

theorem exec_pkRdb_of_inRange (h : s.pkCap = some cap) (hi : idx.toNat < ceil8 cap.toNat) :
    exec (.pkRdb idx) s = .next (s.responded ((s.pkByte idx.toNat).setWidth 32)) := by
  simp only [exec, execPkRdb, h, if_neg (Nat.not_le.mpr hi), respond_eq]

end

/-- Settles O27, by the checks of R68 in their order; the bound written out in the statement is `ceil8` (R10). -/
theorem pkRdbRespondsByte : Obligations.PkRdbRespondsByte :=
  fun _ idx => ⟨fun h => exec_pkRdb_of_unwritten h idx,
    fun _ h => ⟨exec_pkRdb_of_outOfRange h, exec_pkRdb_of_inRange h⟩⟩

end Sys2Proof.Proofs
end

section
/-! The predictors and the forward filter (42_filter.md R70 to R74), over exact integers. -/

namespace Sys2Proof.Proofs

open Sys2Proof.Machine

/-! ### The Paeth predictor (R71) -/

/-- The distance of `v` from the Paeth sum of `a`, `b` and `c` (R71). -/
def paethDist (a b c v : Byte) : Int := |(a.toNat : Int) + b.toNat - c.toNat - v.toNat|

/-- R71 with its distances as integers. -/
theorem paeth_eq_ite (a b c : Byte) :
    paeth a b c =
      if paethDist a b c a ≤ paethDist a b c b ∧ paethDist a b c a ≤ paethDist a b c c then a
      else if paethDist a b c b ≤ paethDist a b c c then b else c := by
  simp only [paeth, paethDist, Int.abs_eq_natAbs, Int.ofNat_le]

/-- Settles O29, by which of the two comparisons of R71 holds: each names the pick, and together they bound its
distance by the other two. -/
theorem paethPicksNearest : Obligations.PaethPicksNearest := by
  intro a b c p dist
  have hpaeth : paeth a b c = if dist a ≤ dist b ∧ dist a ≤ dist c then a else if dist b ≤ dist c then b else c :=
    paeth_eq_ite a b c
  by_cases ha : dist a ≤ dist b ∧ dist a ≤ dist c
  · rw [hpaeth, if_pos ha]
    exact ⟨fun _ => rfl, fun h => absurd ha h, fun h => absurd ha h, le_rfl, ha⟩
  · by_cases hb : dist b ≤ dist c
    · rw [hpaeth, if_neg ha, if_pos hb]
      have hba : dist b ≤ dist a := by omega
      exact ⟨fun h => absurd h ha, fun _ _ => rfl, fun _ h => absurd hb h, hba, le_rfl, hb⟩
    · rw [hpaeth, if_neg ha, if_neg hb]
      have hca : dist c ≤ dist a := by omega
      have hcb : dist c ≤ dist b := by omega
      exact ⟨fun h => absurd h ha, fun _ h => absurd h hb, fun _ _ => rfl, hca, hcb, le_rfl⟩

/-! ### The forward filter (R74) -/

/-- The Average predictor is the exact half of the sum (R72): it fits a byte, so storing it reduces nothing. -/
theorem toNat_pred_average (a b c : Byte) :
    ((pred .average a b c).toNat : Int) = ((a.toNat : Int) + b.toNat) / 2 := by
  simp only [pred, BitVec.toNat_ofNat]
  omega

/-- Byte subtraction is integer subtraction with one reduction modulo 256 (R73). -/
theorem toNat_sub_eq_emod (v q : Byte) : ((v - q).toNat : Int) = ((v.toNat : Int) - q.toNat) % 256 := by
  rw [BitVec.toNat_sub]
  omega

/-- `b(p, i)` of R70. -/
theorem up_eq_getD_map (p : Option (List Byte)) (i : Nat) : up p i = (p.map fun row => row.getD i 0).getD 0 := by
  cases p with
  | none => rfl
  | some row => rfl

/-- `c(p, i)` of R70. -/
theorem upperLeft_eq_getD_map (p : Option (List Byte)) (bpp i : Nat) :
    upperLeft p bpp i = if bpp ≤ i then (p.map fun row => row.getD (i - bpp) 0).getD 0 else 0 := by
  cases p with
  | none => exact (ite_self _).symm
  | some row => rfl

/-- Settles O30: the model's neighbours are those of R70, its predictor is the integer `q` kind by kind, and the
filtered byte is one byte subtraction. -/
theorem forwardFilterBytes : Obligations.ForwardFilterBytes := by
  intro k x p bpp i hi a b c q
  refine ⟨?_, filt_length k x p bpp⟩
  have hq : ((pred k a b c).toNat : Int) = q := by
    cases k with
    | none => rfl
    | sub => rfl
    | up => rfl
    | average => exact toNat_pred_average a b c
    | paeth => rfl
  have hpred : pred k (left x bpp i) (up p i) (upperLeft p bpp i) = pred k a b c := by
    rw [up_eq_getD_map, upperLeft_eq_getD_map, left]
  rw [List.getD_eq_getElem?_getD, filt_getElem? k x p bpp i hi, Option.getD_some, hpred, toNat_sub_eq_emod, hq]

end Sys2Proof.Proofs
end

section
/-! The operands of the filter commands (42_filter.md R48, R80): when the kind and the rows are there. -/

namespace Sys2Proof.Proofs

open Sys2Proof.Machine

/-! ### The kind field (R48) -/

/-- The field with a kind's number names that kind. -/
theorem kindOfField_of_number {kind : BitVec 3} {k : FilterKind} (h : k.word.toNat = kind.toNat) :
    kindOfField kind = some k := by
  revert h kind
  cases k <;> decide

theorem kindOfField_of_large {kind : BitVec 3} (h : 4 < kind.toNat) : kindOfField kind = none := by
  have hnot : ¬(kindOfField kind).isSome = true := by
    rw [kindOfField_isSome]
    omega
  simpa using hnot

theorem exists_kindOfField {kind : BitVec 3} (h : kind.toNat ≤ 4) : ∃ k, kindOfField kind = some k :=
  Option.isSome_iff_exists.mp ((kindOfField_isSome kind).mpr h)

/-! ### The rows (R80) -/

/-- CUR lacks the row exactly when a cell of it is unwritten. -/
theorem curRow_eq_none (len : Nat) (s : State) :
    s.cur.readFrom rowUnlisted 0 len = none ↔ ∃ i, i < len ∧ s.curCell i = none := by
  simpa [State.curCell] using Memory.readFrom_eq_none rowUnlisted s.cur 0 len

/-- The previous row is missing only where it is asked for, and then when a cell of it is unwritten. -/
theorem prevOperand_eq_none (len : Nat) (s : State) :
    prevOperand len s = none ↔ s.flPv = true ∧ ∃ i, i < len ∧ s.prevCell i = none := by
  have hrow := Memory.readFrom_eq_none rowUnlisted s.prev 0 len
  simp only [Nat.zero_add] at hrow
  simp only [prevOperand, State.prevCell]
  cases s.flPv with
  | false => simp
  | true => simp [hrow]

/-- The operands are missing when either is. -/
theorem rowOperands_eq_none (len : Nat) (s : State) :
    rowOperands len s = none ↔ s.cur.readFrom rowUnlisted 0 len = none ∨ prevOperand len s = none := by
  unfold rowOperands
  cases s.cur.readFrom rowUnlisted 0 len with
  | none => simp
  | some x => cases prevOperand len s <;> simp

theorem rowOperands_eq_none_iff_rowMissing (s : State) (len : Nat) :
    rowOperands len s = none ↔ RowMissing s len := by
  rw [rowOperands_eq_none, curRow_eq_none, prevOperand_eq_none, RowMissing]

theorem rowOperands_eq_some_iff_rowsAre (s : State) (len : Nat) (x : List Byte) (p : Option (List Byte)) :
    rowOperands len s = some (x, p) ↔ RowsAre s len x p := by
  rw [rowOperands_eq_some, curRow_eq_some, prevOperand_eq_some, and_assoc, RowsAre]

/-- Settles O36, from what each of the two operands answers. -/
theorem rowOperandsCheckCells : Obligations.RowOperandsCheckCells :=
  fun s len => ⟨rowOperands_eq_none_iff_rowMissing s len, rowOperands_eq_some_iff_rowsAre s len⟩

end Sys2Proof.Proofs
end

section
/-! FL_CFG and FL_WR (42_filter.md R78, R79): the commands that set the filter unit up. -/

namespace Sys2Proof.Proofs

open Sys2Proof.Machine

/-! ### FL_CFG (R78) -/

section
variable {s : State} {len : BitVec 16} {bpp : BitVec 4}

theorem exec_flCfg_of_legal (hlen : ¬(len.toNat < 1 ∨ len.toNat > s.cfg.rowMax))
    (hbpp : ¬(bpp.toNat < 1 ∨ bpp.toNat > 8)) (pv : Bool) :
    exec (.flCfg len bpp pv) s = .next (((s.withFlCfg len bpp pv).withOut [] none).responded 0) := by
  simp only [exec, execFlCfg, if_neg hlen, if_neg hbpp, respond_eq]

theorem exec_flCfg_of_illegalLength (hlen : len.toNat < 1 ∨ len.toNat > s.cfg.rowMax) (bpp : BitVec 4) (pv : Bool) :
    exec (.flCfg len bpp pv) s = .next (s.raised .operand) := by
  simp only [exec, execFlCfg, if_pos hlen, raise_eq]

/-- The answer is the same whether the length is legal or not. -/
theorem exec_flCfg_of_illegalBpp (hbpp : bpp.toNat < 1 ∨ bpp.toNat > 8) (len : BitVec 16) (pv : Bool) :
    exec (.flCfg len bpp pv) s = .next (s.raised .operand) := by
  simp only [exec, execFlCfg, if_pos hbpp, raise_eq, ite_self]

end

/-- Settles O37, by the two checks of R78. -/
theorem flCfgConfigures : Obligations.FlCfgConfigures := by
  refine fun s len bpp pv => ⟨fun ⟨hlen1, hlenMax, hbpp1, hbpp8⟩ => ?_, fun hillegal => ?_⟩
  · exact ⟨_, exec_flCfg_of_legal (by omega) (by omega) pv, rfl, read_rowUnlisted_nil⟩
  · by_cases hlen : len.toNat < 1 ∨ len.toNat > s.cfg.rowMax
    · exact exec_flCfg_of_illegalLength hlen bpp pv
    · exact exec_flCfg_of_illegalBpp (by omega) len pv

/-! ### FL_WR (R79) -/

section
variable {s : State} {idx : BitVec 16}

theorem exec_flWr_cur_of_inRange (hi : idx.toNat < s.cfg.rowMax) (byte : Byte) :
    exec (.flWr .cur idx byte) s
      = .next ((s.withCur (s.cur.write rowUnlisted idx.toNat byte)).responded 0) := by
  simp only [exec, execFlWr, if_neg (Nat.not_le.mpr hi), respond_eq]

theorem exec_flWr_prev_of_inRange (hi : idx.toNat < s.cfg.rowMax) (byte : Byte) :
    exec (.flWr .prev idx byte) s
      = .next ((s.withPrev (s.prev.write rowUnlisted idx.toNat byte)).responded 0) := by
  simp only [exec, execFlWr, if_neg (Nat.not_le.mpr hi), respond_eq]

theorem exec_flWr_of_outOfRange (hi : idx.toNat ≥ s.cfg.rowMax) (sel : RowSel) (byte : Byte) :
    exec (.flWr sel idx byte) s = .next (s.raised .range) := by
  simp only [exec, execFlWr, if_pos hi, raise_eq]

end

/-- Settles O38, by the range check and the buffer; what the cells hold is the write law of the buffers. -/
theorem flWrWritesOneCell : Obligations.FlWrWritesOneCell := by
  refine fun s idx byte => ⟨fun hi => ⟨?_, ?_⟩, fun hi sel => exec_flWr_of_outOfRange hi sel byte⟩
  · exact ⟨_, exec_flWr_cur_of_inRange hi byte, rfl, Memory.read_write_same _ s.cur _ byte,
      fun i hne => Memory.read_write_other _ s.cur _ i byte hne.symm⟩
  · exact ⟨_, exec_flWr_prev_of_inRange hi byte, rfl, Memory.read_write_same _ s.prev _ byte,
      fun i hne => Memory.read_write_other _ s.prev _ i byte hne.symm⟩

end Sys2Proof.Proofs
end

section
/-! FL_FWD, FL_INV and FL_SHIFT (42_filter.md R81, R82, R85): the commands that write a whole row. -/

namespace Sys2Proof.Proofs

open Sys2Proof.Machine

/-! ### A row written from cell 0 on -/

/-- The row stands in the cells below its length. -/
theorem read_writeRow_inside (m : Memory) {row : List Byte} {i : Nat} (hi : i < row.length) :
    (m.writeFrom rowUnlisted 0 row).read rowUnlisted i = row[i]? := by
  rw [Memory.read_writeFrom, if_pos (by omega), Nat.sub_zero]

/-- The cells at and above its length are as before. -/
theorem read_writeRow_outside (m : Memory) {row : List Byte} {i : Nat} (hi : row.length ≤ i) :
    (m.writeFrom rowUnlisted 0 row).read rowUnlisted i = m.read rowUnlisted i := by
  rw [Memory.read_writeFrom, if_neg (by omega)]

/-- The end that FL_FWD, FL_INV and FL_SEL share. -/
theorem storeRow_rowStored (k : FilterKind) (row : List Byte) (s : State) :
    ∃ t, storeRow k row s = .next t ∧ RowStored s t row k :=
  ⟨_, rfl, rfl, fun _ hi => read_writeRow_inside s.out hi, fun _ hi => read_writeRow_outside s.out hi⟩

/-! ### FL_FWD and FL_INV (R81, R82) -/

section
variable {s : State} {len : BitVec 16} {kind : BitVec 3} {k : FilterKind}
  (f : FilterKind → List Byte → Option (List Byte) → Nat → List Byte)

theorem fixedFilter_of_unconfigured (h : s.flLen = none) (kind : BitVec 3) :
    fixedFilter f kind s = .next (s.raised .notInit) := by
  simp only [fixedFilter, h, raise_eq]

theorem fixedFilter_of_noKind (h : s.flLen = some len) (hk : kindOfField kind = none) :
    fixedFilter f kind s = .next (s.raised .filterType) := by
  simp only [fixedFilter, h, hk, raise_eq]

theorem fixedFilter_of_noOperands (h : s.flLen = some len) (hk : kindOfField kind = some k)
    (ho : rowOperands len.toNat s = none) : fixedFilter f kind s = .next (s.raised .unwritten) := by
  simp only [fixedFilter, h, hk, ho, raise_eq]

theorem fixedFilter_of_operands (h : s.flLen = some len) (hk : kindOfField kind = some k) {x : List Byte}
    {p : Option (List Byte)} (ho : rowOperands len.toNat s = some (x, p)) :
    fixedFilter f kind s = storeRow k (f k x p s.flBpp.toNat) s := by
  simp only [fixedFilter, h, hk, ho]

end

/-- R81 and R82 at once, for any transform `f` of the row: the checks in their order, then the transformed row in
OUT. -/
theorem fixedFilter_transformsRow (f : FilterKind → List Byte → Option (List Byte) → Nat → List Byte) (s : State)
    (kind : BitVec 3) :
    (s.flLen = none → fixedFilter f kind s = .next (s.raised .notInit))
    ∧ (∀ len, s.flLen = some len →
      (4 < kind.toNat → fixedFilter f kind s = .next (s.raised .filterType))
      ∧ (kind.toNat ≤ 4 → RowMissing s len.toNat → fixedFilter f kind s = .next (s.raised .unwritten))
      ∧ (∀ k x p, k.word.toNat = kind.toNat → RowsAre s len.toNat x p →
        ∃ t, fixedFilter f kind s = .next t ∧ RowStored s t (f k x p s.flBpp.toNat) k)) := by
  refine ⟨fun h => fixedFilter_of_unconfigured f h kind, fun len h => ⟨fun hkind => ?_, ?_, ?_⟩⟩
  · exact fixedFilter_of_noKind f h (kindOfField_of_large hkind)
  · intro hkind hmissing
    obtain ⟨k, hk⟩ := exists_kindOfField hkind
    exact fixedFilter_of_noOperands f h hk ((rowOperands_eq_none_iff_rowMissing s len.toNat).mpr hmissing)
  · intro k x p hkind hrows
    rw [fixedFilter_of_operands f h (kindOfField_of_number hkind)
      ((rowOperands_eq_some_iff_rowsAre s len.toNat x p).mpr hrows)]
    exact storeRow_rowStored k _ s

/-- Settles O39: FL_FWD is the fixed filter with the forward transform. -/
theorem flFwdFiltersRow : Obligations.FlFwdFiltersRow :=
  fixedFilter_transformsRow filt

/-- Settles O40: FL_INV is the fixed filter with the inverse transform. -/
theorem flInvUnfiltersRow : Obligations.FlInvUnfiltersRow :=
  fixedFilter_transformsRow unfilt

/-! ### FL_SHIFT (R85) -/

section
variable {s : State} {src : ShiftSrc} {len : BitVec 16}

theorem exec_flShift_of_unconfigured (h : s.flLen = none) (src : ShiftSrc) :
    exec (.flShift src) s = .next (s.raised .notInit) := by
  simp only [exec, execFlShift, h, raise_eq]

theorem exec_flShift_of_noRow (h : s.flLen = some len)
    (hrow : (shiftSource src s).readFrom rowUnlisted 0 len.toNat = none) :
    exec (.flShift src) s = .next (s.raised .unwritten) := by
  simp only [exec, execFlShift, h, hrow, raise_eq]

theorem exec_flShift_of_row (h : s.flLen = some len) {row : List Byte}
    (hrow : (shiftSource src s).readFrom rowUnlisted 0 len.toNat = some row) :
    exec (.flShift src) s
      = .next (((s.withPrev (s.prev.writeFrom rowUnlisted 0 row)).withFlPv true).responded 0) := by
  simp only [exec, execFlShift, h, hrow, respond_eq]

end

/-- Settles O44, by whether the source's row can be read; its cells are the `cell` of the statement. -/
theorem flShiftMakesPreviousRow : Obligations.FlShiftMakesPreviousRow := by
  intro s src cell
  have hcell : ∀ i, (shiftSource src s).read rowUnlisted (0 + i) = cell i := by
    intro i
    rw [Nat.zero_add]
    cases src with
    | cur => rfl
    | out => rfl
  refine ⟨fun h => exec_flShift_of_unconfigured h src, fun len h => ?_⟩
  have hnone := Memory.readFrom_eq_none rowUnlisted (shiftSource src s) 0 len.toNat
  have hsome := Memory.readFrom_eq_some rowUnlisted (shiftSource src s) 0 len.toNat
  simp only [hcell] at hnone hsome
  refine ⟨fun hmissing => exec_flShift_of_noRow h (hnone.mpr hmissing), fun hwritten => ?_⟩
  cases hread : (shiftSource src s).readFrom rowUnlisted 0 len.toNat with
  | none =>
    obtain ⟨i, hi, hmissing⟩ := hnone.mp hread
    exact absurd hmissing (hwritten i hi)
  | some row =>
    obtain ⟨hlength, hrow⟩ := (hsome row).mp hread
    refine ⟨_, exec_flShift_of_row h hread, rfl, fun i hi => ?_, fun i hi => ?_⟩
    · rw [hrow i hi]
      exact read_writeRow_inside s.prev (hlength ▸ hi)
    · exact read_writeRow_outside s.prev (hlength ▸ hi)

end Sys2Proof.Proofs
end

section
/-! FL_RDO and FL_RDT (42_filter.md R83, R84): the reads of the output row and of its kind. -/

namespace Sys2Proof.Proofs

open Sys2Proof.Machine

/-! ### FL_RDO (R83) -/

section
variable {s : State} {idx len : BitVec 16}

theorem exec_flRdo_of_unconfigured (h : s.flLen = none) (idx : BitVec 16) :
    exec (.flRdo idx) s = .next (s.raised .notInit) := by
  simp only [exec, execFlRdo, h, raise_eq]

theorem exec_flRdo_of_outOfRange (h : s.flLen = some len) (hi : idx.toNat ≥ len.toNat) :
    exec (.flRdo idx) s = .next (s.raised .range) := by
  simp only [exec, execFlRdo, h, if_pos hi, raise_eq]

theorem exec_flRdo_of_unwritten (h : s.flLen = some len) (hi : idx.toNat < len.toNat)
    (ho : s.outCell idx.toNat = none) : exec (.flRdo idx) s = .next (s.raised .unwritten) := by
  simp only [exec, execFlRdo, h, if_neg (Nat.not_le.mpr hi), ho, raise_eq]

theorem exec_flRdo_of_written (h : s.flLen = some len) (hi : idx.toNat < len.toNat) {b : Byte}
    (ho : s.outCell idx.toNat = some b) : exec (.flRdo idx) s = .next (s.responded (b.setWidth 32)) := by
  simp only [exec, execFlRdo, h, if_neg (Nat.not_le.mpr hi), ho, respond_eq]

end

/-- Settles O42, by the checks of R83 in their order. -/
theorem flRdoRespondsOutput : Obligations.FlRdoRespondsOutput :=
  fun _ idx => ⟨fun h => exec_flRdo_of_unconfigured h idx,
    fun _ h => ⟨exec_flRdo_of_outOfRange h, exec_flRdo_of_unwritten h, fun _ hi ho => exec_flRdo_of_written h hi ho⟩⟩

/-! ### FL_RDT (R84) -/

section
variable {s : State} {len : BitVec 16}

theorem exec_flRdt_of_unconfigured (h : s.flLen = none) : exec .flRdt s = .next (s.raised .notInit) := by
  simp only [exec, execFlRdt, h, raise_eq]

theorem exec_flRdt_of_untagged (h : s.flLen = some len) (ht : s.tag = none) :
    exec .flRdt s = .next (s.raised .unwritten) := by
  simp only [exec, execFlRdt, h, ht, raise_eq]

theorem exec_flRdt_of_tagged (h : s.flLen = some len) {k : FilterKind} (ht : s.tag = some k) :
    exec .flRdt s = .next (s.responded k.word) := by
  simp only [exec, execFlRdt, h, ht, respond_eq]

end

/-- R18: the numbers of the kinds end at 4. -/
theorem toNat_kindWord_le (k : FilterKind) : k.word.toNat ≤ 4 := by
  cases k <;> decide

/-- Settles O43: the numbers are those of the two tables, and the checks of R84 come in their order. -/
theorem flRdtRespondsTag : Obligations.FlRdtRespondsTag :=
  ⟨rfl, rfl, fun _ => ⟨exec_flRdt_of_unconfigured,
    fun _ h => ⟨exec_flRdt_of_untagged h,
      fun k ht => ⟨toNat_kindWord_le k, exec_flRdt_of_tagged h ht⟩⟩⟩⟩

end Sys2Proof.Proofs
end

section
/-! Dynamic selection (43_filter_select.md R88, R89, R92): the score, the earliest kind of least score, and FL_SEL. -/

namespace Sys2Proof.Proofs

open Sys2Proof.Machine

/-! ### The score (R88) -/

/-- The absolute value of a byte read as signed, without the signed number. -/
theorem natAbs_sbyte (b : Byte) : (sbyte b).natAbs = if b.toNat < 128 then b.toNat else 256 - b.toNat := by
  rw [sbyte]
  split <;> omega

/-- -128 has the largest absolute value. -/
theorem natAbs_sbyte_le (b : Byte) : (sbyte b).natAbs ≤ 128 := by
  rw [natAbs_sbyte]
  split <;> omega

theorem score_eq_sum (f : List Byte) :
    score f = (f.map fun b => if b.toNat < 128 then b.toNat else 256 - b.toNat).sum := by
  induction f with
  | nil => rfl
  | cons b f ih => rw [score, natAbs_sbyte, ih, List.map_cons, List.sum_cons]

theorem score_le (f : List Byte) : score f ≤ 128 * f.length := by
  induction f with
  | nil => exact le_rfl
  | cons b f ih =>
    have hb := natAbs_sbyte_le b
    rw [score, List.length_cons]
    omega

/-- Settles O34: the sum and the bound are each an induction over the row. -/
theorem scoreIsSumOfMagnitudes : Obligations.ScoreIsSumOfMagnitudes :=
  fun f => ⟨score_eq_sum f, score_le f⟩

/-! ### The selected kind (R89) -/

/-- What the loop of R89 keeps: `best` is the earliest kind of least score among those numbered below `n`. -/
def LeadsBelow (scoreOf : FilterKind → Nat) (n : Nat) (best : FilterKind) : Prop :=
  best.word.toNat < n ∧ ∀ j : FilterKind, j.word.toNat < n →
    scoreOf best ≤ scoreOf j ∧ (j.word.toNat < best.word.toNat → scoreOf best < scoreOf j)

/-- No two kinds have the same number (R18): the field with that number names both. -/
theorem kindWord_toNat_injective {j k : FilterKind} (h : j.word.toNat = k.word.toNat) : j = k := by
  have hj : j.word.toNat = (j.word.setWidth 3).toNat := by cases j <;> rfl
  exact Option.some.inj ((kindOfField_of_number hj).symm.trans (kindOfField_of_number (h.symm.trans hj)))

/-- Before the loop None leads: it is the only kind numbered below 1. -/
theorem leadsBelow_none (scoreOf : FilterKind → Nat) : LeadsBelow scoreOf 1 .none := by
  refine ⟨Nat.one_pos, fun j hj => ?_⟩
  obtain rfl : j = .none := kindWord_toNat_injective (Nat.lt_one_iff.mp hj)
  exact ⟨le_rfl, fun h => absurd h (lt_irrefl _)⟩

/-- A turn of the loop with the next kind `k` takes `k` into account. -/
theorem leadsBelow_better {scoreOf : FilterKind → Nat} {best k : FilterKind}
    (h : LeadsBelow scoreOf k.word.toNat best) :
    LeadsBelow scoreOf (k.word.toNat + 1) (better scoreOf best k) := by
  obtain ⟨hbest, hleast⟩ := h
  by_cases hk : scoreOf k < scoreOf best
  · rw [better, if_pos hk]
    refine ⟨Nat.lt_succ_self _, fun j hj => ?_⟩
    rcases Nat.lt_succ_iff_lt_or_eq.mp hj with hlt | heq
    · have hkj : scoreOf k < scoreOf j := hk.trans_le (hleast j hlt).1
      exact ⟨hkj.le, fun _ => hkj⟩
    · obtain rfl := kindWord_toNat_injective heq
      exact ⟨le_rfl, fun h => absurd h (lt_irrefl _)⟩
  · rw [better, if_neg hk]
    refine ⟨Nat.lt_succ_of_lt hbest, fun j hj => ?_⟩
    rcases Nat.lt_succ_iff_lt_or_eq.mp hj with hlt | heq
    · exact hleast j hlt
    · obtain rfl := kindWord_toNat_injective heq
      exact ⟨Nat.not_lt.mp hk, fun h => absurd h hbest.not_gt⟩

section
variable (x : List Byte) (p : Option (List Byte)) (bpp : Nat) {gray : Bool} {depth : Nat}

theorem select_of_forced (h : gray = true ∧ depth < 8) : select x p bpp gray depth = .none := by
  rw [select, if_pos h]

/-- The four turns of the loop, from None on. -/
theorem leadsBelow_select (h : ¬(gray = true ∧ depth < 8)) :
    LeadsBelow (fun k => score (filt k x p bpp)) 5 (select x p bpp gray depth) := by
  rw [select, if_neg h]
  have hsub := leadsBelow_better (k := .sub) (leadsBelow_none fun k => score (filt k x p bpp))
  have hup := leadsBelow_better (k := .up) hsub
  have haverage := leadsBelow_better (k := .average) hup
  exact leadsBelow_better (k := .paeth) haverage

end

/-- Settles O35: every kind is numbered below 5, where the selected kind leads. -/
theorem selectionIsEarliestMinimum : Obligations.SelectionIsEarliestMinimum := by
  refine fun x p bpp gray depth => ⟨fun hg hd => select_of_forced x p bpp ⟨hg, hd⟩, fun hfree j => ?_⟩
  obtain ⟨-, hleast⟩ := leadsBelow_select x p bpp hfree
  exact hleast j (Nat.lt_succ_of_le (toNat_kindWord_le j))

/-! ### FL_SEL (R92) -/

/-- The legal depths are the listed ones. -/
theorem legalDepth_iff (d : BitVec 5) : legalDepth d = true ↔ d.toNat ∈ [1, 2, 4, 8, 16] := by
  simp [legalDepth, or_assoc]

section
variable {s : State} {len : BitVec 16} {depth : BitVec 5}

theorem exec_flSel_of_unconfigured (h : s.flLen = none) (gray : Bool) (depth : BitVec 5) :
    exec (.flSel gray depth) s = .next (s.raised .notInit) := by
  simp only [exec, execFlSel, h, raise_eq]

theorem exec_flSel_of_illegalDepth (h : s.flLen = some len) (hd : ¬legalDepth depth = true) (gray : Bool) :
    exec (.flSel gray depth) s = .next (s.raised .bitDepth) := by
  simp only [exec, execFlSel, h, if_neg hd, raise_eq]

/-- Whether None is forced is not asked yet. -/
theorem exec_flSel_of_noOperands (h : s.flLen = some len) (hd : legalDepth depth = true)
    (ho : rowOperands len.toNat s = none) (gray : Bool) :
    exec (.flSel gray depth) s = .next (s.raised .unwritten) := by
  simp only [exec, execFlSel, h, if_pos hd, ho, raise_eq]

theorem exec_flSel_of_operands (h : s.flLen = some len) (hd : legalDepth depth = true) {x : List Byte}
    {p : Option (List Byte)} (ho : rowOperands len.toNat s = some (x, p)) (gray : Bool) :
    exec (.flSel gray depth) s
      = storeRow (select x p s.flBpp.toNat gray depth.toNat)
          (filt (select x p s.flBpp.toNat gray depth.toNat) x p s.flBpp.toNat) s := by
  simp only [exec, execFlSel, h, if_pos hd, ho]

end

/-- Settles O41, by the checks of R92 in their order; when all pass, FL_SEL ends as FL_FWD does. -/
theorem flSelFiltersSelected : Obligations.FlSelFiltersSelected := by
  refine fun s gray depth => ⟨fun h => exec_flSel_of_unconfigured h gray depth, fun len h => ⟨?_, ?_, ?_⟩⟩
  · intro hd
    exact exec_flSel_of_illegalDepth h (mt (legalDepth_iff depth).mp hd) gray
  · intro hd hmissing
    exact exec_flSel_of_noOperands h ((legalDepth_iff depth).mpr hd)
      ((rowOperands_eq_none_iff_rowMissing s len.toNat).mpr hmissing) gray
  · intro x p hd hrows
    rw [exec_flSel_of_operands h ((legalDepth_iff depth).mpr hd)
      ((rowOperands_eq_some_iff_rowsAre s len.toNat x p).mpr hrows) gray]
    exact storeRow_rowStored _ _ s

end Sys2Proof.Proofs
end

section
/-! The control commands (44_control.md R93, R94), and the way of a word through the fault gate (60_exceptions.md R97)
and the decoder (30_encoding.md R52) on which ST_RD differs from every other command. -/

namespace Sys2Proof.Proofs

open Sys2Proof.Machine

/-! ### A word at the port -/

/-- The step on a presented word takes it from the port and runs it. -/
theorem step_of_command {s : State} {w : Cmd} {rest : List HostInput} (h : s.port = .command w :: rest) :
    step s = runCommand w (s.withPort rest) := by
  simp only [step, serve, h, runInput]

/-- R97: the gate closes on a faulted state, for every word but ST_RD's. -/
theorem gateCloses_eq_true_iff (s : State) (w : Cmd) :
    gateCloses s w = true ↔ s.fault = true ∧ w ≠ stRdWord := by
  simp only [gateCloses, Bool.and_eq_true, bne_iff_ne]

theorem runCommand_of_gateClosed {s : State} {w : Cmd} (hf : s.fault = true) (hw : w ≠ stRdWord) :
    runCommand w s = .next (s.withRsp .faulted 0) := by
  rw [runCommand, if_pos ((gateCloses_eq_true_iff s w).mpr ⟨hf, hw⟩), gated_eq]

theorem runCommand_of_decodeError {s : State} {w : Cmd} {e : DecodeError} (hf : s.fault = false)
    (hd : decode w = .error e) : runCommand w s = .next (s.raised (decodeStatus e)) := by
  have hopen : ¬gateCloses s w = true := by simp [gateCloses_eq_true_iff, hf]
  simp only [runCommand, if_neg hopen, hd, raise_eq]

/-- The gate is open to ST_RD's word in every state. -/
theorem runCommand_stRdWord (s : State) : runCommand stRdWord s = exec .stRd s := by
  have hopen : ¬gateCloses s stRdWord = true := by simp [gateCloses_eq_true_iff]
  have hd : decode stRdWord = .ok .stRd := rfl
  simp only [runCommand, if_neg hopen, hd]

/-! ### Words with the opcode of a format-Z command -/

/-- The opcode field (R45) as the number above bit 56. -/
theorem toNat_opcodeField (w : Cmd) : (cmdField w 56 8).toNat = w.toNat / 2 ^ 56 := by
  rw [cmdField, BitVec.extractLsb'_toNat, Nat.shiftRight_eq_div_pow]
  exact Nat.mod_eq_of_lt (by omega)

/-- R51: an assigned opcode with a reserved bit set. -/
theorem decode_of_reservedBit {w : Cmd} {o : Op} (hopc : cmdField w 56 8 = o.opc)
    (hbit : w &&& reservedMask o.format ≠ 0) : decode w = .error .reserved := by
  simp only [decode, hopc, opOf_opc, if_neg hbit]

/-- In format Z all 56 bits below the opcode are reserved (R46). -/
theorem toNat_and_reservedMask_Z (w : Cmd) : (w &&& reservedMask .Z).toNat = w.toNat % 2 ^ 56 := by
  have hmask : (reservedMask .Z).toNat = 2 ^ 56 - 1 := by decide
  rw [BitVec.toNat_and, hmask, Nat.and_two_pow_sub_one_eq_mod]

/-- ST_RD's opcode and no reserved bit make its exact word. -/
theorem eq_stRdWord {w : Cmd} (hopc : w.toNat / 2 ^ 56 = 0x01) (hbits : w &&& reservedMask .Z = 0) :
    w = stRdWord := by
  have hlow : w.toNat % 2 ^ 56 = 0 := by rw [← toNat_and_reservedMask_Z, hbits]; rfl
  have hword : stRdWord.toNat = 2 ^ 56 := by decide
  exact BitVec.eq_of_toNat_eq (by omega)

/-- R94: any other word with ST_RD's opcode has a reserved bit set. -/
theorem decode_of_stRdOpcode {w : Cmd} (hopc : w.toNat / 2 ^ 56 = 0x01) (hw : w ≠ stRdWord) :
    decode w = .error .reserved := by
  have hfield : cmdField w 56 8 = Op.stRd.opc := BitVec.eq_of_toNat_eq ((toNat_opcodeField w).trans hopc)
  exact decode_of_reservedBit hfield fun hbits => hw (eq_stRdWord hopc hbits)

/-! ### NOP and ST_RD -/

/-- R93. -/
theorem exec_nop (s : State) : exec .nop s = .next (s.responded 0) := rfl

/-- R94. -/
theorem exec_stRd (s : State) : exec .stRd s = .next (s.responded (statusWord s)) := rfl

/-- Settles O14: the rule only responds. -/
theorem nopWritesNothing : Obligations.NopWritesNothing :=
  exec_nop

/-- Settles O16: ST_RD's word passes the gate in every state; another word with its opcode is stopped by the gate in
a faulted state and by the decoder otherwise. -/
theorem statusReadAlwaysRuns : Obligations.StatusReadAlwaysRuns := by
  refine ⟨exec_stRd, fun s rest hport => ?_, fun s w rest hport hopc hw => ?_⟩
  · exact (step_of_command hport).trans (runCommand_stRdWord (s.withPort rest))
  · rw [step_of_command hport]
    by_cases hf : s.fault = true
    · rw [if_pos hf]
      exact runCommand_of_gateClosed hf hw
    · rw [if_neg hf]
      exact runCommand_of_decodeError (s := s.withPort rest) (Bool.eq_false_of_not_eq_true hf)
        (decode_of_stRdOpcode hopc hw)

end Sys2Proof.Proofs
end

section
/-! The decoder (30_encoding.md R50 to R52): it undoes the encoder, its word is the only one of a command, and it
agrees with the opcode table. -/

namespace Sys2Proof.Proofs

open Sys2Proof.Machine

/-! ### Decoding what was encoded -/

/-- A field, from the number of its word. -/
theorem cmdField_eq_of_toNat {w : Cmd} {lo width : Nat} {x : BitVec width}
    (h : w.toNat / 2 ^ lo % 2 ^ width = x.toNat) : cmdField w lo width = x := by
  refine BitVec.eq_of_toNat_eq ?_
  rw [cmdField, BitVec.extractLsb'_toNat, Nat.shiftRight_eq_div_pow, h]

/-- A single bit, from the number of its word. -/
theorem cmdBit_eq_of_toNat {w : Cmd} {k : Nat} {b : Bool} (h : w.toNat / 2 ^ k % 2 = b.toNat) : cmdBit w k = b := by
  rw [cmdBit, BitVec.getLsbD, Nat.testBit_eq_decide_div_mod_eq, h]
  cases b <;> rfl

/-- Formats B, W, K and I: the operand at bit 0 is what stands below the opcode and the reserved bits. -/
theorem cmdField_zero_append {m n : Nat} (hi : BitVec m) (x : BitVec n) (h : m + n = 64) :
    cmdField ((hi ++ x).cast h) 0 n = x := by
  refine cmdField_eq_of_toNat ?_
  rw [BitVec.toNat_cast, toNat_append_eq_add, pow_zero, Nat.div_one, Nat.mul_add_mod_self_right,
    Nat.mod_eq_of_lt x.isLt]

/-- R47: the operands of an encoded command are read back, field by field. -/
theorem readOperands_encode (i : Instr) : readOperands i.op (encode i) = i := by
  cases i with
  | nop | stRd | crcInit | crcFinal | flRdt => rfl
  | crcByte b => exact congrArg Instr.crcByte (cmdField_zero_append (Op.crcByte.opc ++ 0#48) b rfl)
  | crcTbl b => exact congrArg Instr.crcTbl (cmdField_zero_append (Op.crcTbl.opc ++ 0#48) b rfl)
  | pkInit cap => exact congrArg Instr.pkInit (cmdField_zero_append (Op.pkInit.opc ++ 0#24) cap rfl)
  | pkRdb idx => exact congrArg Instr.pkRdb (cmdField_zero_append (Op.pkRdb.opc ++ 0#24) idx rfl)
  | flFwd kind => exact congrArg Instr.flFwd (cmdField_zero_append (Op.flFwd.opc ++ 0#53) kind rfl)
  | flInv kind => exact congrArg Instr.flInv (cmdField_zero_append (Op.flInv.opc ++ 0#53) kind rfl)
  | flRdo idx => exact congrArg Instr.flRdo (cmdField_zero_append (Op.flRdo.opc ++ 0#40) idx rfl)
  | pkPut off val n =>
    have hw := toNat_encode_pkPut off val n
    show Instr.pkPut (cmdField _ 24 32) (cmdField _ 8 16) (cmdField _ 0 5) = _
    rw [cmdField_eq_of_toNat (x := off) (by omega), cmdField_eq_of_toNat (x := val) (by omega),
      cmdField_eq_of_toNat (x := n) (by omega)]
  | flCfg len bpp pv =>
    have hw := toNat_encode_flCfg len bpp pv
    have hpv := pv.toNat_lt
    show Instr.flCfg (cmdField _ 8 16) (cmdField _ 4 4) (cmdBit _ 0) = _
    rw [cmdField_eq_of_toNat (x := len) (by omega), cmdField_eq_of_toNat (x := bpp) (by omega),
      cmdBit_eq_of_toNat (b := pv) (by omega)]
  | flWr sel idx byte =>
    have hw := toNat_encode_flWr sel idx byte
    have hsel : cmdBit (encode (.flWr sel idx byte)) 24 = decide (sel = .prev) := by
      refine cmdBit_eq_of_toNat ?_
      cases sel <;> simp only [reduceCtorEq, if_true, if_false, decide_true, decide_false, Bool.toNat_true,
        Bool.toNat_false] at hw ⊢ <;> omega
    show Instr.flWr (RowSel.ofBit (cmdBit _ 24)) (cmdField _ 8 16) (cmdField _ 0 8) = _
    rw [hsel, cmdField_eq_of_toNat (x := idx) (by split at hw <;> omega),
      cmdField_eq_of_toNat (x := byte) (by split at hw <;> omega)]
    cases sel <;> rfl
  | flSel gray depth =>
    have hw := toNat_encode_flSel gray depth
    have hgray := gray.toNat_lt
    show Instr.flSel (cmdBit _ 5) (cmdField _ 0 5) = _
    rw [cmdBit_eq_of_toNat (b := gray) (by omega), cmdField_eq_of_toNat (x := depth) (by omega)]
  | flShift src => cases src <;> rfl

/-- R52: the encoded word has the row's opcode and no reserved bit set, for every command. -/
theorem opcodeRow (i : Instr) : Laws.OpcodeRow.Statement i :=
  match i with
  | .nop => Laws.OpcodeRow.nop
  | .stRd => Laws.OpcodeRow.stRd
  | .crcInit => Laws.OpcodeRow.crcInit
  | .crcByte b => Laws.OpcodeRow.crcByte b
  | .crcFinal => Laws.OpcodeRow.crcFinal
  | .crcTbl b => Laws.OpcodeRow.crcTbl b
  | .pkInit cap => Laws.OpcodeRow.pkInit cap
  | .pkPut off val n => Laws.OpcodeRow.pkPut off val n
  | .pkRdb idx => Laws.OpcodeRow.pkRdb idx
  | .flCfg len bpp pv => Laws.OpcodeRow.flCfg len bpp pv
  | .flWr sel idx byte => Laws.OpcodeRow.flWr sel idx byte
  | .flFwd kind => Laws.OpcodeRow.flFwd kind
  | .flSel gray depth => Laws.OpcodeRow.flSel gray depth
  | .flInv kind => Laws.OpcodeRow.flInv kind
  | .flRdo idx => Laws.OpcodeRow.flRdo idx
  | .flRdt => Laws.OpcodeRow.flRdt
  | .flShift src => Laws.OpcodeRow.flShift src

/-- Settles O9: the word has its row's opcode and no reserved bit (`opcodeRow`), so the decoder reads the operands,
which are those encoded. -/
theorem decodeOfEncode : Obligations.DecodeOfEncode := by
  intro i
  obtain ⟨hopc, hreserved⟩ := opcodeRow i
  exact (decode_eq_ok (encode i) i).mpr ⟨i.op, hopc, hreserved, (readOperands_encode i).symm⟩

/-! ### The one word of a command -/

/-- The reserved bits of `CMD[55:0]` are those outside the fields of R46. -/
theorem getLsbD_reservedMask (f : Format) :
    ∀ k < 56, (reservedMask f).getLsbD k = decide (∀ r ∈ r46Fields f, ¬(r.2 ≤ k ∧ k ≤ r.1)) := by
  cases f <;> decide

/-- Equal fields have equal bits. -/
theorem getLsbD_eq_of_cmdField {w w' : Cmd} {lo width k : Nat} (h : cmdField w lo width = cmdField w' lo width)
    (hlo : lo ≤ k) (hk : k < lo + width) : w.getLsbD k = w'.getLsbD k := by
  have hbit := congrArg (fun x => x.getLsbD (k - lo)) h
  have hlt : k - lo < width := by omega
  simpa [cmdField, BitVec.getLsbD_extractLsb', hlt, Nat.add_sub_cancel' hlo] using hbit


/-- A field of one bit is that bit. -/
theorem cmdField_one_inj {w w' : Cmd} {k : Nat} : cmdField w k 1 = cmdField w' k 1 ↔ cmdBit w k = cmdBit w' k := by
  refine ⟨fun h => getLsbD_eq_of_cmdField h (Nat.le_refl k) (Nat.lt_succ_self k), fun h => ?_⟩
  refine BitVec.eq_of_getLsbD_eq fun j hj => ?_
  obtain rfl : j = 0 := by omega
  simpa [cmdField, cmdBit] using h

theorem selOfBit_inj {b b' : Bool} : RowSel.ofBit b = RowSel.ofBit b' ↔ b = b' := by
  revert b b'; decide

theorem srcOfBit_inj {b b' : Bool} : ShiftSrc.ofBit b = ShiftSrc.ofBit b' ↔ b = b' := by
  revert b b'; decide

/-- Words with the same operands have the same fields. -/
theorem cmdField_eq_of_readOperands {o : Op} {w w' : Cmd} (h : readOperands o w = readOperands o w') :
    ∀ r ∈ r46Fields o.format, cmdField w r.2 (r.1 + 1 - r.2) = cmdField w' r.2 (r.1 + 1 - r.2) := by
  cases o with
  | nop | stRd | crcInit | crcFinal | flRdt => exact fun _ hr => absurd hr List.not_mem_nil
  | _ => simpa [readOperands, r46Fields, Op.format, cmdField_one_inj, selOfBit_inj, srcOfBit_inj] using h

/-- Words with the same opcode, no reserved bit and the same operands are the same: every bit is one of the opcode, a
reserved one, or one of a field. -/
theorem eq_of_readOperands_eq {o : Op} {w w' : Cmd} (hopc : cmdField w 56 8 = cmdField w' 56 8)
    (hw : w &&& reservedMask o.format = 0) (hw' : w' &&& reservedMask o.format = 0)
    (h : readOperands o w = readOperands o w') : w = w' := by
  refine BitVec.eq_of_getLsbD_eq fun k hk => ?_
  by_cases hk56 : 56 ≤ k
  · exact getLsbD_eq_of_cmdField hopc hk56 (by omega)
  have hmask := getLsbD_reservedMask o.format k (by omega)
  by_cases hr : ∀ r ∈ r46Fields o.format, ¬(r.2 ≤ k ∧ k ≤ r.1)
  · rw [decide_eq_true hr] at hmask
    have hbit := congrArg (fun x => x.getLsbD k) (hw.trans hw'.symm)
    simpa [hmask] using hbit
  · push Not at hr
    obtain ⟨r, hmem, hlo, hhi⟩ := hr
    exact getLsbD_eq_of_cmdField (cmdField_eq_of_readOperands h r hmem) hlo (by omega)

/-- Settles O10: the word and the encoding of what it decodes to share the opcode and the operands, and neither has a
reserved bit set. -/
theorem encodeOfDecode : Obligations.EncodeOfDecode := by
  intro w i h
  obtain ⟨o, hopc, hreserved, rfl⟩ := (decode_eq_ok w i).mp h
  obtain ⟨hopc', hreserved'⟩ := opcodeRow (readOperands o w)
  have hread := readOperands_encode (readOperands o w)
  rw [readOperands_op] at hopc' hreserved' hread
  exact eq_of_readOperands_eq (hopc'.trans hopc.symm) hreserved' hreserved hread


/-! ### The opcode table (R50 to R52) -/

/-- A word has an operation's opcode exactly when its number above bit 56 is the opcode's. -/
theorem cmdField_opcode_eq_iff (w : Cmd) (o : Op) : cmdField w 56 8 = o.opc ↔ w.toNat / 2 ^ 56 = o.opc.toNat := by
  rw [← toNat_opcodeField, BitVec.toNat_inj]

/-- R50: the decoder answers E_ILLEGAL exactly when the opcode is no operation's. -/
theorem decode_eq_illegal (w : Cmd) : decode w = .error .illegal ↔ ∀ o : Op, cmdField w 56 8 ≠ o.opc := by
  constructor
  · intro h o hopc
    simp only [decode, hopc, opOf_opc] at h
    split at h <;> cases h
  · intro h
    cases hop : opOf (cmdField w 56 8) with
    | none => simp only [decode, hop]
    | some o => exact absurd ((opOf_eq_some _ o).mp hop) (h o)

/-- R51: the decoder answers E_RESERVED exactly when the opcode is an operation's and a reserved bit of its format is
set. -/
theorem decode_eq_reserved (w : Cmd) :
    decode w = .error .reserved ↔ ∃ o : Op, cmdField w 56 8 = o.opc ∧ w &&& reservedMask o.format ≠ 0 := by
  constructor
  · intro h
    cases hop : opOf (cmdField w 56 8) with
    | none => simp [decode, hop] at h
    | some o =>
      refine ⟨o, (opOf_eq_some _ o).mp hop, fun hbits => ?_⟩
      simp [decode, hop, hbits] at h
  · rintro ⟨o, hopc, hbits⟩
    exact decode_of_reservedBit hopc hbits

/-- Each opcode is one operation's. -/
theorem opc_injective {o o' : Op} (h : o.opc = o'.opc) : o = o' :=
  Option.some.inj (((opOf_opc o).symm.trans (congrArg opOf h)).trans (opOf_opc o'))

/-- The row R52's formula gives an operation: the match is the opcode above zeros, the mask all eight bits of the
opcode above the format's reserved bits. -/
def rowOf (o : Op) : Op × Cmd × Cmd := (o, o.opc ++ 0#56, 0xFF#8 ++ cmdField (reservedMask o.format) 0 56)

theorem opcodeTable_eq_map : opcodeTable = opcodeMap.map rowOf := by decide

/-- The rows of the table are those of the operations, one each. -/
theorem forall_mem_opcodeTable {P : Op × Cmd × Cmd → Prop} : (∀ row ∈ opcodeTable, P row) ↔ ∀ o, P (rowOf o) := by
  have hall : ∀ o : Op, o ∈ opcodeMap := by intro o; cases o <;> decide
  rw [opcodeTable_eq_map, List.forall_mem_map]
  exact ⟨fun h o => h o (hall o), fun h o _ => h o⟩

/-- A word is its opcode field above the rest. -/
theorem opcodeField_append (w : Cmd) : cmdField w 56 8 ++ cmdField w 0 56 = w :=
  (BitVec.extractLsb'_append_extractLsb'_eq_extractLsb' rfl).trans BitVec.extractLsb'_eq_self

theorem append_eq_append_iff {m n : Nat} {x x' : BitVec m} {y y' : BitVec n} :
    x ++ y = x' ++ y' ↔ x = x' ∧ y = y' := by
  refine ⟨fun h => ⟨?_, ?_⟩, fun ⟨hx, hy⟩ => hx ▸ hy ▸ rfl⟩
  · simpa only [BitVec.extractLsb'_append_eq_left] using congrArg (BitVec.extractLsb' n m) h
  · simpa only [BitVec.extractLsb'_append_eq_right] using congrArg (BitVec.extractLsb' 0 n) h

/-- No bit of the opcode is reserved. -/
theorem reservedMask_eq_append (f : Format) : reservedMask f = 0#8 ++ cmdField (reservedMask f) 0 56 := by
  cases f <;> rfl

/-- A mask with all eight bits of the opcode compares the opcode and, apart from it, what the mask has below. -/
theorem and_fullOpcodeMask_eq_iff (hi opc : BitVec 8) (lo mask : BitVec 56) :
    (hi ++ lo) &&& (0xFF#8 ++ mask) = opc ++ 0#56 ↔ hi = opc ∧ (hi ++ lo) &&& (0#8 ++ mask) = 0#8 ++ 0#56 := by
  have hall : hi &&& 0xFF#8 = hi := BitVec.and_allOnes
  rw [BitVec.and_append, BitVec.and_append, append_eq_append_iff, append_eq_append_iff, hall, BitVec.and_zero,
    eq_self_iff_true, true_and]

/-- R52: a word matches its row exactly when it has the row's opcode and no reserved bit set. -/
theorem matches_rowOf_iff (w : Cmd) (o : Op) :
    w &&& (rowOf o).2.2 = (rowOf o).2.1 ↔ cmdField w 56 8 = o.opc ∧ w &&& reservedMask o.format = 0 := by
  have h := and_fullOpcodeMask_eq_iff (cmdField w 56 8) o.opc (cmdField w 0 56)
    (cmdField (reservedMask o.format) 0 56)
  rwa [opcodeField_append, ← reservedMask_eq_append] at h

/-- The decoder answers a row's command exactly when the word matches the row. -/
theorem decode_rowOf_iff (w : Cmd) (o : Op) :
    (∃ i, decode w = .ok i ∧ i.op = o) ↔ w &&& (rowOf o).2.2 = (rowOf o).2.1 := by
  rw [matches_rowOf_iff]
  constructor
  · rintro ⟨i, h, rfl⟩
    obtain ⟨o, hopc, hreserved, rfl⟩ := (decode_eq_ok w i).mp h
    rw [readOperands_op]
    exact ⟨hopc, hreserved⟩
  · rintro ⟨hopc, hreserved⟩
    exact ⟨readOperands o w, (decode_eq_ok w _).mpr ⟨o, hopc, hreserved, rfl⟩, readOperands_op o w⟩

/-- The row's opcode compared as the statement has it. -/
theorem shift_eq_rowOf_iff (w : Cmd) (o : Op) : w >>> 56 = (rowOf o).2.1 >>> 56 ↔ cmdField w 56 8 = o.opc := by
  have hrow : (rowOf o).2.1.toNat / 2 ^ 56 = o.opc.toNat := by cases o <;> rfl
  rw [cmdField_opcode_eq_iff, ← hrow, ← BitVec.toNat_inj, BitVec.toNat_ushiftRight, BitVec.toNat_ushiftRight,
    Nat.shiftRight_eq_div_pow, Nat.shiftRight_eq_div_pow]

/-- Settles O11: row by row a match is the opcode without a reserved bit, which is what the decoder asks for; the two
errors are the cases of no row's opcode and of a row's opcode with a reserved bit. -/
theorem decoderAgreesWithOpcodeTable : Obligations.DecoderAgreesWithOpcodeTable := by
  refine ⟨fun w => forall_mem_opcodeTable.mpr (decode_rowOf_iff w), fun w => ?_, fun w => ?_⟩
  · rw [decode_eq_illegal, forall_mem_opcodeTable]
    exact forall_congr' fun o => not_congr (shift_eq_rowOf_iff w o).symm
  · have hex : (∃ row ∈ opcodeTable, w >>> 56 = row.2.1 >>> 56) ↔ ∃ o : Op, cmdField w 56 8 = o.opc := by
      rw [← not_iff_not]
      push Not
      rw [forall_mem_opcodeTable]
      exact forall_congr' fun o => not_congr (shift_eq_rowOf_iff w o)
    rw [decode_eq_reserved, hex, forall_mem_opcodeTable]
    constructor
    · rintro ⟨o, hopc, hbits⟩
      refine ⟨⟨o, hopc⟩, fun o' hmatch => ?_⟩
      obtain ⟨hopc', hbits'⟩ := (matches_rowOf_iff w o').mp hmatch
      obtain rfl := opc_injective (hopc.symm.trans hopc')
      exact hbits hbits'
    · rintro ⟨⟨o, hopc⟩, hno⟩
      exact ⟨o, hopc, fun hbits => hno o ((matches_rowOf_iff w o).mpr ⟨hopc, hbits⟩)⟩

/-- Settles O13: the decoder run on eight words. -/
theorem exampleWordsDecode : Obligations.ExampleWordsDecode :=
  ⟨rfl, rfl, rfl, rfl, rfl, rfl, rfl, rfl⟩

end Sys2Proof.Proofs
end

section
/-! One step (30_encoding.md R43, R50 to R52, 60_exceptions.md R97): the gate, the decoder, the command's rule; and a
reset (70_reset_and_hazards.md R107). -/

namespace Sys2Proof.Proofs

open Sys2Proof.Machine

/-! ### The gate and the decoder -/

/-- A word the gate lets through and that decodes runs its command. -/
theorem runCommand_of_decoded {s : State} {w : Cmd} {i : Instr} (hgate : s.fault = false ∨ w = stRdWord)
    (hd : decode w = .ok i) : runCommand w s = exec i s := by
  have hopen : ¬gateCloses s w = true := by
    rw [gateCloses_eq_true_iff]
    rintro ⟨hf, hw⟩
    rcases hgate with hf' | hw'
    · exact absurd (hf.symm.trans hf') (by decide)
    · exact hw hw'
  simp only [runCommand, if_neg hopen, hd]

/-- Settles O3. -/
theorem stepRunsDecodedCommand : Obligations.StepRunsDecodedCommand := by
  intro s w rest i hport hgate hd
  rw [step_of_command hport]
  exact runCommand_of_decoded (s := s.withPort rest) hgate hd

/-- Settles O4: the gate closes. -/
theorem faultGateTurnsWordsAway : Obligations.FaultGateTurnsWordsAway := by
  intro s w rest hport hf hw
  rw [step_of_command hport]
  exact runCommand_of_gateClosed (s := s.withPort rest) hf hw

/-- The step on a word the decoder rejects is fault entry (R98). -/
theorem step_of_decodeError {s : State} {w : Cmd} {rest : List HostInput} {e : DecodeError}
    (hport : s.port = .command w :: rest) (hf : s.fault = false) (hd : decode w = .error e) :
    step s = .next ((s.withPort rest).raised (decodeStatus e)) := by
  rw [step_of_command hport]
  exact runCommand_of_decodeError (s := s.withPort rest) hf hd

/-- R50: no operation has an opcode in the four unassigned ranges. -/
theorem opc_not_unassigned (o : Op) :
    ¬((0x02 ≤ o.opc.toNat ∧ o.opc.toNat ≤ 0x0F) ∨ (0x14 ≤ o.opc.toNat ∧ o.opc.toNat ≤ 0x1F)
      ∨ (0x23 ≤ o.opc.toNat ∧ o.opc.toNat ≤ 0x2F) ∨ (0x38 ≤ o.opc.toNat ∧ o.opc.toNat ≤ 0xFF)) := by
  cases o <;> decide

/-- Settles O5: no operation has the opcode, so the decoder rejects the word. -/
theorem unassignedOpcodeRaisesIllegal : Obligations.UnassignedOpcodeRaisesIllegal := by
  rintro s w rest hport hf ⟨opc, rfl, hrange⟩
  refine step_of_decodeError hport hf ((decode_eq_illegal w).mpr fun o hopc => opc_not_unassigned o ?_)
  rwa [← (cmdField_opcode_eq_iff w o).mp hopc]

/-- Settles O6: the bit is one of the format's reserved mask, so the decoder rejects the word. -/
theorem reservedBitRaisesReserved : Obligations.ReservedBitRaisesReserved := by
  intro s w rest o k hport hf hopc hk hbit hfields
  refine step_of_decodeError hport hf (decode_of_reservedBit ((cmdField_opcode_eq_iff w o).mpr hopc) fun hzero => ?_)
  have hmask : (reservedMask o.format).getLsbD k = true :=
    (getLsbD_reservedMask o.format k hk).trans (decide_eq_true hfields)
  have hset : (w &&& reservedMask o.format).getLsbD k = true := by rw [BitVec.getLsbD_and, hbit, hmask]; rfl
  rw [hzero] at hset
  exact absurd hset (by simp)

/-! ### Reset -/

/-- The step on a reset takes it from the port; the command it cuts off is not read. -/
theorem step_of_reset {s : State} {pending : Option Cmd} {rest : List HostInput} (h : s.port = .reset pending :: rest) :
    step s = .next (s.withPort rest).afterReset := by
  simp only [step, serve, h, runInput, runReset_eq]

/-- R107: reset leaves the values of R25. -/
theorem afterReset_atReset (s : State) : s.afterReset.AtReset :=
  ⟨rfl, rfl, rfl, rfl, rfl, rfl, read_rowUnlisted_nil, read_rowUnlisted_nil, read_rowUnlisted_nil, rfl⟩

/-- Settles O2: the state after the step is that of R107 and does not name the pending command. -/
theorem resetInputRestoresR25 : Obligations.ResetInputRestoresR25 := by
  intro s pending rest hport
  exact ⟨_, step_of_reset hport, afterReset_atReset _, rfl,
    fun pending' => step_of_reset (s := { s with port := .reset pending' :: rest }) rfl⟩

end Sys2Proof.Proofs
end

section
/-! The error numbers (60_exceptions.md R95), the CRC table and the source's CRC values (10_state.md R20, 40_crc.md
R57, R63), and PK_INIT (41_bitpacker.md R66). -/

namespace Sys2Proof.Proofs

open Sys2Proof.Machine

/-- Settles O17: the list computed from the table of R95. -/
theorem errorCodeNumbers : Obligations.ErrorCodeNumbers := rfl

/-! ### CRC_TBL (R63) -/

/-- R63. -/
theorem exec_crcTbl (s : State) (b : Byte) : exec (.crcTbl b) s = .next (s.responded (crcRom b)) := rfl

/-- Masking with 1 tests the lowest bit. -/
theorem and_one_eq_one_iff (c : Word) : c &&& 1 = 1 ↔ c.getLsbD 0 = true := by
  have hone : (1 : Word) = BitVec.twoPow 32 0 := rfl
  rw [hone, BitVec.and_twoPow]
  cases c.getLsbD 0 <;> decide

/-- Repeated rounds as an iterate. -/
theorem crcRounds_eq_iterate (k : Nat) (c : Word) : crcRounds k c = crcRound^[k] c := by
  induction k generalizing c with
  | zero => rfl
  | succ k ih => rw [crcRounds, ih, Function.iterate_succ_apply]

/-- Settles O21: the statement's round is the model's, with the lowest bit tested by a mask. -/
theorem crcTblRespondsTableEntry : Obligations.CrcTblRespondsTableEntry := by
  intro s b round
  have hround : round = crcRound := by
    funext c
    simp only [round, crcRound, and_one_eq_one_iff]
  rw [hround, ← crcRounds_eq_iterate]
  exact exec_crcTbl s b

/-- Settles O22: the CRC run on no bytes and on four. -/
theorem crcOfSourceVectors : Obligations.CrcOfSourceVectors :=
  ⟨rfl, by decide +kernel⟩

/-! ### PK_INIT (R66) -/

section
variable {s : State} {cap : BitVec 32}

theorem exec_pkInit_of_fits (h : ¬ceil8 cap.toNat > s.cfg.pkMaxBytes) :
    exec (.pkInit cap) s
      = .next (((s.withPkBuf (s.pkBuf.clearBelow (ceil8 cap.toNat))).withPkCap cap).responded
          (BitVec.ofNat 32 (ceil8 cap.toNat))) := by
  simp only [exec, execPkInit, if_neg h, respond_eq]

theorem exec_pkInit_of_tooLarge (h : ceil8 cap.toNat > s.cfg.pkMaxBytes) :
    exec (.pkInit cap) s = .next (s.raised .capacity) := by
  simp only [exec, execPkInit, if_pos h, raise_eq]

end

theorem pkRead_clearBelow_inside (m : Memory) {n j : Nat} (h : j < n) : pkRead (m.clearBelow n) j = 0 := by
  rw [pkRead_clearBelow, if_pos h]

theorem pkRead_clearBelow_outside (m : Memory) {n j : Nat} (h : n ≤ j) : pkRead (m.clearBelow n) j = pkRead m j := by
  rw [pkRead_clearBelow, if_neg (Nat.not_lt.mpr h)]

/-- Settles O25, by the check of R66; the bound written out in the statement is `ceil8` (R10). -/
theorem pkInitZeroesBuffer : Obligations.PkInitZeroesBuffer := by
  refine fun s cap => ⟨fun h => ?_, exec_pkInit_of_tooLarge⟩
  exact ⟨_, exec_pkInit_of_fits (Nat.not_lt.mpr h), rfl, fun _ hj => pkRead_clearBelow_inside s.pkBuf hj,
    fun _ hj => pkRead_clearBelow_outside s.pkBuf hj⟩

end Sys2Proof.Proofs
end

section
/-! What a command can do to a state, said once for all seventeen (60_exceptions.md R98, 10_state.md section 1): it
raises an error, or it responds OK after one of eight changes. -/

namespace Sys2Proof.Proofs

open Sys2Proof.Machine

/-- `Effect s i t`: `t` is `s` after the command `i`, with what the command's checks say of the values it wrote. -/
inductive Effect (s : State) : Instr → State → Prop
  | raises {i : Instr} {e : Status} (he : 1 ≤ e.code.toNat ∧ e.code.toNat ≤ 9) : Effect s i (s.raised e)
  | reads {i : Instr} (d : Word) : Effect s i (s.responded d)
  | writesAcc {i : Instr} (hi : i.op ∈ [Op.crcInit, .crcByte]) (v : Word) : Effect s i ((s.withCrcAcc v).responded 0)
  | initsBuffer {cap : BitVec 32} (hcap : ceil8 cap.toNat ≤ s.cfg.pkMaxBytes) (d : Word) :
      Effect s (.pkInit cap) (((s.withPkBuf (s.pkBuf.clearBelow (ceil8 cap.toNat))).withPkCap cap).responded d)
  | putsSample {off cap : BitVec 32} {n : BitVec 5} (hcap : s.pkCap = some cap)
      (hfits : off.toNat + n.toNat ≤ cap.toNat) (val : BitVec 16) (d : Word) :
      Effect s (.pkPut off val n) ((s.withPkBuf (put s.pkBuf off.toNat val n.toNat)).responded d)
  | configures {len : BitVec 16} {bpp : BitVec 4} (hlen : 1 ≤ len.toNat ∧ len.toNat ≤ s.cfg.rowMax)
      (hbpp : 1 ≤ bpp.toNat ∧ bpp.toNat ≤ 8) (pv : Bool) :
      Effect s (.flCfg len bpp pv) (((s.withFlCfg len bpp pv).withOut [] none).responded 0)
  | writesCur {idx : BitVec 16} (hidx : idx.toNat < s.cfg.rowMax) (byte : Byte) :
      Effect s (.flWr .cur idx byte) ((s.withCur (s.cur.write rowUnlisted idx.toNat byte)).responded 0)
  | writesPrev {idx : BitVec 16} (hidx : idx.toNat < s.cfg.rowMax) (byte : Byte) :
      Effect s (.flWr .prev idx byte) ((s.withPrev (s.prev.write rowUnlisted idx.toNat byte)).responded 0)
  | storesRow {i : Instr} (hi : i.op ∈ [Op.flFwd, .flInv, .flSel]) {len : BitVec 16} {row : List Byte}
      (hlen : s.flLen = some len) (hrow : row.length = len.toNat) (k : FilterKind) :
      Effect s i ((s.withOut (s.out.writeFrom rowUnlisted 0 row) (some k)).responded k.word)
  | shifts {len : BitVec 16} {row : List Byte} (hlen : s.flLen = some len) (hrow : row.length = len.toNat)
      (src : ShiftSrc) :
      Effect s (.flShift src) (((s.withPrev (s.prev.writeFrom rowUnlisted 0 row)).withFlPv true).responded 0)

/-- The result of the command `i` from `s` is a next state, by one of the effects. -/
def HasEffect (s : State) (i : Instr) (r : Result) : Prop := ∃ t, r = .next t ∧ Effect s i t

section
variable {s : State} {i : Instr} {e : Status} {d : Word} {r : Result}

theorem hasEffect_raised (he : 1 ≤ e.code.toNat ∧ e.code.toNat ≤ 9) (h : r = .next (s.raised e)) : HasEffect s i r :=
  ⟨_, h, .raises he⟩

theorem hasEffect_read (h : r = .next (s.responded d)) : HasEffect s i r := ⟨_, h, .reads d⟩

/-- FL_FWD, FL_INV and FL_SEL end alike (R81, R82, R92). -/
theorem hasEffect_storeRow (hi : i.op ∈ [Op.flFwd, .flInv, .flSel]) {len : BitVec 16} {row : List Byte}
    (hlen : s.flLen = some len) (hrow : row.length = len.toNat) (k : FilterKind) :
    HasEffect s i (storeRow k row s) :=
  ⟨_, rfl, .storesRow hi hlen hrow k⟩

/-- FL_FWD and FL_INV (R81, R82), for a transform that keeps the row's length. -/
theorem fixedFilter_hasEffect (hi : i.op ∈ [Op.flFwd, .flInv, .flSel])
    (f : FilterKind → List Byte → Option (List Byte) → Nat → List Byte)
    (hf : ∀ k x p bpp, (f k x p bpp).length = x.length) (kind : BitVec 3) (s : State) :
    HasEffect s i (fixedFilter f kind s) := by
  rcases fixedFilter_cases f kind s with
    ⟨-, h⟩ | ⟨len, hlen, ⟨-, h⟩ | ⟨k, -, ⟨-, h⟩ | ⟨x, p, ho, h⟩⟩⟩
  · exact hasEffect_raised (by decide) h
  · exact hasEffect_raised (by decide) h
  · exact hasEffect_raised (by decide) h
  · rw [h]
    exact hasEffect_storeRow hi hlen ((hf k x p _).trans (rowOperands_length ho)) k

end

/-! ### The commands with checks, in the order of their rules -/

section
variable (s : State)

theorem exec_crcByte_hasEffect (b : Byte) : HasEffect s (.crcByte b) (exec (.crcByte b) s) := by
  cases h : s.crcAcc with
  | none => exact hasEffect_raised (by decide) (exec_crcByte_of_unwritten h b)
  | some acc => exact ⟨_, exec_crcByte_of_written h b, .writesAcc (by simp [Instr.op]) _⟩

theorem exec_crcFinal_hasEffect : HasEffect s .crcFinal (exec .crcFinal s) := by
  cases h : s.crcAcc with
  | none => exact hasEffect_raised (by decide) (exec_crcFinal_of_unwritten h)
  | some acc => exact hasEffect_read (exec_crcFinal_of_written h)

theorem exec_pkInit_hasEffect (cap : BitVec 32) : HasEffect s (.pkInit cap) (exec (.pkInit cap) s) := by
  by_cases h : ceil8 cap.toNat > s.cfg.pkMaxBytes
  · exact hasEffect_raised (by decide) (exec_pkInit_of_tooLarge h)
  · exact ⟨_, exec_pkInit_of_fits h, .initsBuffer (by omega) _⟩

theorem exec_pkPut_hasEffect (off : BitVec 32) (val : BitVec 16) (n : BitVec 5) :
    HasEffect s (.pkPut off val n) (exec (.pkPut off val n) s) := by
  cases h : s.pkCap with
  | none => exact hasEffect_raised (by decide) (exec_pkPut_of_unwritten h off val n)
  | some cap =>
    by_cases hn : n.toNat < 1 ∨ n.toNat > 16
    · exact hasEffect_raised (by decide) (exec_pkPut_of_illegalWidth h hn off val)
    by_cases hc : off.toNat + n.toNat > cap.toNat
    · exact hasEffect_raised (by decide) (exec_pkPut_of_pastCapacity h hn hc val)
    · exact ⟨_, exec_pkPut_of_fits h hn hc val, .putsSample h (by omega) val _⟩

theorem exec_pkRdb_hasEffect (idx : BitVec 32) : HasEffect s (.pkRdb idx) (exec (.pkRdb idx) s) := by
  cases h : s.pkCap with
  | none => exact hasEffect_raised (by decide) (exec_pkRdb_of_unwritten h idx)
  | some cap =>
    by_cases hi : idx.toNat < ceil8 cap.toNat
    · exact hasEffect_read (exec_pkRdb_of_inRange h hi)
    · exact hasEffect_raised (by decide) (exec_pkRdb_of_outOfRange h (Nat.le_of_not_lt hi))

theorem exec_flCfg_hasEffect (len : BitVec 16) (bpp : BitVec 4) (pv : Bool) :
    HasEffect s (.flCfg len bpp pv) (exec (.flCfg len bpp pv) s) := by
  by_cases hlen : len.toNat < 1 ∨ len.toNat > s.cfg.rowMax
  · exact hasEffect_raised (by decide) (exec_flCfg_of_illegalLength hlen bpp pv)
  by_cases hbpp : bpp.toNat < 1 ∨ bpp.toNat > 8
  · exact hasEffect_raised (by decide) (exec_flCfg_of_illegalBpp hbpp len pv)
  · exact ⟨_, exec_flCfg_of_legal hlen hbpp pv, .configures (by omega) (by omega) pv⟩

theorem exec_flWr_hasEffect (sel : RowSel) (idx : BitVec 16) (byte : Byte) :
    HasEffect s (.flWr sel idx byte) (exec (.flWr sel idx byte) s) := by
  by_cases hi : idx.toNat < s.cfg.rowMax
  · cases sel with
    | cur => exact ⟨_, exec_flWr_cur_of_inRange hi byte, .writesCur hi byte⟩
    | prev => exact ⟨_, exec_flWr_prev_of_inRange hi byte, .writesPrev hi byte⟩
  · exact hasEffect_raised (by decide) (exec_flWr_of_outOfRange (Nat.le_of_not_lt hi) sel byte)

theorem exec_flSel_hasEffect (gray : Bool) (depth : BitVec 5) :
    HasEffect s (.flSel gray depth) (exec (.flSel gray depth) s) := by
  cases h : s.flLen with
  | none => exact hasEffect_raised (by decide) (exec_flSel_of_unconfigured h gray depth)
  | some len =>
    by_cases hd : legalDepth depth = true
    · cases ho : rowOperands len.toNat s with
      | none => exact hasEffect_raised (by decide) (exec_flSel_of_noOperands h hd ho gray)
      | some operands =>
        rw [exec_flSel_of_operands h hd ho gray]
        exact hasEffect_storeRow (by simp [Instr.op]) h ((filt_length _ _ _ _).trans (rowOperands_length ho)) _
    · exact hasEffect_raised (by decide) (exec_flSel_of_illegalDepth h hd gray)

theorem exec_flRdo_hasEffect (idx : BitVec 16) : HasEffect s (.flRdo idx) (exec (.flRdo idx) s) := by
  cases h : s.flLen with
  | none => exact hasEffect_raised (by decide) (exec_flRdo_of_unconfigured h idx)
  | some len =>
    by_cases hi : idx.toNat < len.toNat
    · cases ho : s.outCell idx.toNat with
      | none => exact hasEffect_raised (by decide) (exec_flRdo_of_unwritten h hi ho)
      | some b => exact hasEffect_read (exec_flRdo_of_written h hi ho)
    · exact hasEffect_raised (by decide) (exec_flRdo_of_outOfRange h (Nat.le_of_not_lt hi))

theorem exec_flRdt_hasEffect : HasEffect s .flRdt (exec .flRdt s) := by
  cases h : s.flLen with
  | none => exact hasEffect_raised (by decide) (exec_flRdt_of_unconfigured h)
  | some len =>
    cases ht : s.tag with
    | none => exact hasEffect_raised (by decide) (exec_flRdt_of_untagged h ht)
    | some k => exact hasEffect_read (exec_flRdt_of_tagged h ht)

theorem exec_flShift_hasEffect (src : ShiftSrc) : HasEffect s (.flShift src) (exec (.flShift src) s) := by
  cases h : s.flLen with
  | none => exact hasEffect_raised (by decide) (exec_flShift_of_unconfigured h src)
  | some len =>
    cases hrow : (shiftSource src s).readFrom rowUnlisted 0 len.toNat with
    | none => exact hasEffect_raised (by decide) (exec_flShift_of_noRow h hrow)
    | some row =>
      have hlength := ((Memory.readFrom_eq_some _ _ _ _ row).mp hrow).1
      exact ⟨_, exec_flShift_of_row h hrow, .shifts h hlength src⟩

end

/-- Every command, in every state, has one of the effects. -/
theorem exec_hasEffect (i : Instr) (s : State) : HasEffect s i (exec i s) := by
  cases i with
  | nop => exact hasEffect_read (exec_nop s)
  | stRd => exact hasEffect_read (exec_stRd s)
  | crcInit => exact ⟨_, exec_crcInit s, .writesAcc (by simp [Instr.op]) _⟩
  | crcByte b => exact exec_crcByte_hasEffect s b
  | crcFinal => exact exec_crcFinal_hasEffect s
  | crcTbl b => exact hasEffect_read (exec_crcTbl s b)
  | pkInit cap => exact exec_pkInit_hasEffect s cap
  | pkPut off val n => exact exec_pkPut_hasEffect s off val n
  | pkRdb idx => exact exec_pkRdb_hasEffect s idx
  | flCfg len bpp pv => exact exec_flCfg_hasEffect s len bpp pv
  | flWr sel idx byte => exact exec_flWr_hasEffect s sel idx byte
  | flFwd kind => exact fixedFilter_hasEffect (by simp [Instr.op]) filt filt_length kind s
  | flSel gray depth => exact exec_flSel_hasEffect s gray depth
  | flInv kind => exact fixedFilter_hasEffect (by simp [Instr.op]) unfilt unfilt_length kind s
  | flRdo idx => exact exec_flRdo_hasEffect s idx
  | flRdt => exact exec_flRdt_hasEffect s
  | flShift src => exact exec_flShift_hasEffect s src

/-- What is known of a state that a command led to. -/
theorem effect_of_exec {i : Instr} {s t : State} (h : exec i s = .next t) : Effect s i t := by
  obtain ⟨t', h', heffect⟩ := exec_hasEffect i s
  obtain rfl : t' = t := by simpa [h] using h'.symm
  exact heffect

/-! ### What every effect has in common -/

section
variable {s t : State} {i : Instr}

/-- R98: an effect is an error that changes STATUS and the response alone, or the response is OK and STATUS stays. -/
theorem effect_status (h : Effect s i t) :
    (∃ d, t.rsp = some { status := .ok, data := d } ∧ t.fault = s.fault ∧ t.code = s.code)
    ∨ (∃ e : Status, 1 ≤ e.code.toNat ∧ e.code.toNat ≤ 9 ∧ t = s.raised e) := by
  cases h with
  | raises he => exact .inr ⟨_, he.1, he.2, rfl⟩
  | _ => exact .inl ⟨_, rfl, rfl, rfl⟩

theorem effect_port (h : Effect s i t) : t.port = s.port := by cases h <;> rfl

end

/-- Settles O47, from what every effect does to STATUS. -/
theorem errorsChangeOnlyStatus : Obligations.ErrorsChangeOnlyStatus := by
  intro i s
  obtain ⟨t, h, heffect⟩ := exec_hasEffect i s
  exact ⟨t, h, effect_status heffect⟩

/-- Settles O50: each effect that changes an element names its commands. -/
theorem elementsWrittenByTheirCommands : Obligations.ElementsWrittenByTheirCommands := by
  intro i s t h
  cases effect_of_exec h with
  | writesAcc hi => simpa using fun _ => hi
  | storesRow hi =>
    have hi' : i.op ∈ [Op.flFwd, .flInv, .flSel, .flCfg] := List.mem_append_left [Op.flCfg] hi
    simpa using And.intro (fun _ => hi') (fun _ => hi')
  | _ => simp [Instr.op]

end Sys2Proof.Proofs
end

section
/-! The invariant (10_state.md sections 3 to 6): it holds at reset, and every effect of a command keeps it. -/

namespace Sys2Proof.Proofs

open Sys2Proof.Machine

/-! ### What the invariant does not look at -/

section
variable {s : State}

theorem inv_withPort (h : s.Inv) (p : List HostInput) : (s.withPort p).Inv :=
  ⟨h.cfg_legal, h.status, h.canonical, h.inBounds, h.registers, h.padding, h.output⟩

theorem inv_withRsp (h : s.Inv) (st : Status) (d : Word) : (s.withRsp st d).Inv :=
  ⟨h.cfg_legal, h.status, h.canonical, h.inBounds, h.registers, h.padding, h.output⟩

theorem inv_responded (h : s.Inv) (d : Word) : (s.responded d).Inv := inv_withRsp h .ok d

theorem inv_withCrcAcc (h : s.Inv) (v : Word) : (s.withCrcAcc v).Inv :=
  ⟨h.cfg_legal, h.status, h.canonical, h.inBounds, h.registers, h.padding, h.output⟩

/-- FL_PV takes either value. -/
theorem inv_withFlPv (h : s.Inv) (pv : Bool) : (s.withFlPv pv).Inv :=
  ⟨h.cfg_legal, h.status, h.canonical, h.inBounds, h.registers, h.padding, h.output⟩

/-- Fault entry writes a code of an error other than E_FAULTED (R15, R98). -/
theorem inv_raised (h : s.Inv) {e : Status} (he : 1 ≤ e.code.toNat ∧ e.code.toNat ≤ 9) : (s.raised e).Inv := by
  have hok : e ≠ .ok := by rintro rfl; exact absurd he (by decide)
  have hfaulted : e ≠ .faulted := by rintro rfl; exact absurd he (by decide)
  exact ⟨h.cfg_legal, ⟨⟨nofun, fun hc => absurd hc hok⟩, hfaulted⟩, h.canonical, h.inBounds,
    h.registers, h.padding, h.output⟩

/-- Reset, for legal parameters (R25, R107). -/
theorem inv_afterReset (h : s.cfg.legal = true) : s.afterReset.Inv where
  cfg_legal := h
  status := ⟨⟨fun _ => rfl, fun _ => rfl⟩, nofun⟩
  canonical := ⟨rfl, rfl, rfl, rfl⟩
  inBounds := ⟨rfl, rfl, rfl, rfl⟩
  registers := ⟨nofun, nofun⟩
  padding := nofun
  output := read_rowUnlisted_nil

/-! ### The packer -/

/-- R66: the padding of a new capacity stands in bytes that PK_INIT zeroes. -/
theorem inv_initBuffer (h : s.Inv) {cap : BitVec 32} (hcap : ceil8 cap.toNat ≤ s.cfg.pkMaxBytes) :
    ((s.withPkBuf (s.pkBuf.clearBelow (ceil8 cap.toNat))).withPkCap cap).Inv := by
  obtain ⟨hcfg, hstatus, ⟨hpkWf, hrowsWf⟩, ⟨hpkIn, hrowsIn⟩, ⟨hlen, -⟩, -, hout⟩ := h
  refine ⟨hcfg, hstatus, ⟨Memory.clearBelow_wf _ _ _ hpkWf, hrowsWf⟩, ⟨Memory.clearBelow_below _ _ _ hpkIn, hrowsIn⟩,
    ⟨hlen, ?_⟩, ?_, hout⟩
  · rintro _ ⟨⟩
    exact hcap
  · rintro _ ⟨⟩ k - hk
    show (pkRead (s.pkBuf.clearBelow (ceil8 cap.toNat)) (k / 8)).getLsbD (7 - k % 8) = false
    rw [pkRead_clearBelow_inside _ (by omega)]
    exact BitVec.getLsbD_zero

/-- R67: a sample ends at or below the capacity, so no padding bit is set. -/
theorem inv_putSample (h : s.Inv) {cap : BitVec 32} (hcap : s.pkCap = some cap) {off n : Nat}
    (hfits : off + n ≤ cap.toNat) (val : BitVec 16) : (s.withPkBuf (put s.pkBuf off val n)).Inv := by
  obtain ⟨hcfg, hstatus, ⟨hpkWf, hrowsWf⟩, ⟨hpkIn, hrowsIn⟩, ⟨hlen, hcaps⟩, hpadding, hout⟩ := h
  have hmax : ceil8 cap.toNat ≤ s.cfg.pkMaxBytes := hcaps cap hcap
  have hceil : cap.toNat ≤ 8 * ceil8 cap.toNat := by rw [ceil8]; omega
  refine ⟨hcfg, hstatus, ⟨put_wf _ _ _ _ hpkWf, hrowsWf⟩, ⟨put_below _ _ _ _ _ hpkIn ?_, hrowsIn⟩, ⟨hlen, hcaps⟩, ?_,
    hout⟩
  · exact hfits.trans (hceil.trans (Nat.mul_le_mul_left 8 hmax))
  · intro cap' hcap' k hk hk'
    obtain rfl : cap = cap' := Option.some.inj (hcap.symm.trans hcap')
    exact (pkReadBit_put_outside s.pkBuf val (Or.inr (hfits.trans hk))).trans (hpadding cap hcap k hk hk')

/-! ### The filter unit -/

/-- R78: the registers are legal, and OUT and TAG are unwritten. -/
theorem inv_configure (h : s.Inv) {len : BitVec 16} {bpp : BitVec 4}
    (hlen : 1 ≤ len.toNat ∧ len.toNat ≤ s.cfg.rowMax) (hbpp : 1 ≤ bpp.toNat ∧ bpp.toNat ≤ 8) (pv : Bool) :
    ((s.withFlCfg len bpp pv).withOut [] none).Inv := by
  obtain ⟨hcfg, hstatus, ⟨hpkWf, hcurWf, hprevWf, -⟩, ⟨hpkIn, hcurIn, hprevIn, -⟩, ⟨-, hcaps⟩, hpadding, -⟩ := h
  refine ⟨hcfg, hstatus, ⟨hpkWf, hcurWf, hprevWf, rfl⟩, ⟨hpkIn, hcurIn, hprevIn, rfl⟩, ⟨?_, hcaps⟩, hpadding,
    read_rowUnlisted_nil⟩
  rintro _ ⟨⟩
  exact ⟨hlen.1, hlen.2, hbpp.1, hbpp.2⟩

/-- A new content of CUR, canonical and in bounds. -/
theorem inv_withCur (h : s.Inv) {m : Memory} (hwf : m.wf rowUnlisted = true) (hin : m.below s.cfg.rowMax = true) :
    (s.withCur m).Inv := by
  obtain ⟨hcfg, hstatus, ⟨hpkWf, -, hprevWf, houtWf⟩, ⟨hpkIn, -, hprevIn, houtIn⟩, hregisters, hpadding, hout⟩ := h
  exact ⟨hcfg, hstatus, ⟨hpkWf, hwf, hprevWf, houtWf⟩, ⟨hpkIn, hin, hprevIn, houtIn⟩, hregisters, hpadding, hout⟩

/-- A new content of PREV, canonical and in bounds. -/
theorem inv_withPrev (h : s.Inv) {m : Memory} (hwf : m.wf rowUnlisted = true) (hin : m.below s.cfg.rowMax = true) :
    (s.withPrev m).Inv := by
  obtain ⟨hcfg, hstatus, ⟨hpkWf, hcurWf, -, houtWf⟩, ⟨hpkIn, hcurIn, -, houtIn⟩, hregisters, hpadding, hout⟩ := h
  exact ⟨hcfg, hstatus, ⟨hpkWf, hcurWf, hwf, houtWf⟩, ⟨hpkIn, hcurIn, hin, houtIn⟩, hregisters, hpadding, hout⟩

/-- A row of FL_LEN bytes stays within a row buffer. -/
theorem writeRow_below (h : s.Inv) {len : BitVec 16} {row : List Byte} (hlen : s.flLen = some len)
    (hrow : row.length = len.toNat) {m : Memory} (hin : m.below s.cfg.rowMax = true) :
    (m.writeFrom rowUnlisted 0 row).below s.cfg.rowMax = true := by
  obtain ⟨-, hmax, -, -⟩ := h.registers.1 len hlen
  exact Memory.writeFrom_below _ _ _ _ _ hin (by omega)

/-- No cell of OUT at or above FL_LEN is written, whatever TAG holds. -/
theorem outCell_eq_none (h : s.Inv) {len : BitVec 16} (hlen : s.flLen = some len) {i : Nat} (hi : len.toNat ≤ i) :
    s.outCell i = none := by
  have hout := h.output
  unfold State.OutputWhole at hout
  cases htag : s.tag with
  | none =>
    rw [htag] at hout
    exact hout i
  | some k =>
    rw [htag] at hout
    obtain ⟨len', hlen', hcells⟩ := hout
    obtain rfl : len = len' := Option.some.inj (hlen.symm.trans hlen')
    simpa using mt (hcells i).mp (Nat.not_lt.mpr hi)

/-- R81, R82, R92: after a filter command OUT holds the row's cells and no other. -/
theorem inv_storeRow (h : s.Inv) {len : BitVec 16} {row : List Byte} (hlen : s.flLen = some len)
    (hrow : row.length = len.toNat) (k : FilterKind) :
    (s.withOut (s.out.writeFrom rowUnlisted 0 row) (some k)).Inv := by
  have hcells : ∀ i, ((s.out.writeFrom rowUnlisted 0 row).read rowUnlisted i).isSome = true ↔ i < len.toNat := by
    intro i
    rw [← hrow]
    by_cases hi : i < row.length
    · simp [read_writeRow_inside s.out hi, hi]
    · have hnone : s.out.read rowUnlisted i = none := outCell_eq_none h hlen (by omega)
      simp [read_writeRow_outside s.out (Nat.le_of_not_lt hi), hnone, hi]
  have hbelow := writeRow_below h hlen hrow h.inBounds.2.2.2
  obtain ⟨hcfg, hstatus, ⟨hpkWf, hcurWf, hprevWf, houtWf⟩, ⟨hpkIn, hcurIn, hprevIn, -⟩, hregisters, hpadding, -⟩ := h
  exact ⟨hcfg, hstatus, ⟨hpkWf, hcurWf, hprevWf, Memory.writeFrom_wf _ _ _ _ houtWf⟩,
    ⟨hpkIn, hcurIn, hprevIn, hbelow⟩, hregisters, hpadding, len, hlen, hcells⟩

end

/-! ### Every step -/

/-- Effect by effect, by the lemma for what it writes. -/
theorem effect_keeps_inv {s t : State} {i : Instr} (h : s.Inv) (heffect : Effect s i t) : t.Inv := by
  obtain ⟨-, hcurWf, hprevWf, -⟩ := h.canonical
  obtain ⟨-, hcurIn, hprevIn, -⟩ := h.inBounds
  cases heffect with
  | raises he => exact inv_raised h he
  | reads d => exact inv_responded h d
  | writesAcc _ v => exact inv_responded (inv_withCrcAcc h v) 0
  | initsBuffer hcap d => exact inv_responded (inv_initBuffer h hcap) d
  | putsSample hcap hfits val d => exact inv_responded (inv_putSample h hcap hfits val) d
  | configures hlen hbpp pv => exact inv_responded (inv_configure h hlen hbpp pv) 0
  | writesCur hidx byte =>
    exact inv_responded (inv_withCur h (Memory.write_wf _ _ _ _ hcurWf) (Memory.write_below _ _ _ _ _ hcurIn hidx)) 0
  | writesPrev hidx byte =>
    exact inv_responded (inv_withPrev h (Memory.write_wf _ _ _ _ hprevWf) (Memory.write_below _ _ _ _ _ hprevIn hidx)) 0
  | storesRow _ hlen hrow k => exact inv_responded (inv_storeRow h hlen hrow k) k.word
  | shifts hlen hrow src =>
    exact inv_responded (inv_withFlPv (inv_withPrev h (Memory.writeFrom_wf _ _ _ _ hprevWf)
      (writeRow_below h hlen hrow hprevIn)) true) 0

/-- The decoder's rejections are the errors 1 and 2 (R50, R51). -/
theorem decodeStatus_code (e : DecodeError) : 1 ≤ (decodeStatus e).code.toNat ∧ (decodeStatus e).code.toNat ≤ 9 := by
  cases e <;> decide

/-- One command word keeps the invariant: the gate writes a response, the decoder's rejection is fault entry, and a
command has an effect. -/
theorem runCommand_keeps_inv {s t : State} {w : Cmd} (h : s.Inv) (hrun : runCommand w s = .next t) : t.Inv := by
  rcases runCommand_cases w s with ⟨-, hr⟩ | ⟨-, e, -, hr⟩ | ⟨-, i, -, hr⟩
  · obtain rfl : s.withRsp .faulted 0 = t := by simpa [hrun] using hr.symm
    exact inv_withRsp h .faulted 0
  · obtain rfl : s.raised (decodeStatus e) = t := by simpa [hrun] using hr.symm
    exact inv_raised h (decodeStatus_code e)
  · exact effect_keeps_inv h (effect_of_exec (hr.symm.trans hrun))

/-- Settles O56, by the three things a step can do. -/
theorem stepKeepsInvariant : Obligations.StepKeepsInvariant := by
  intro s t h hstep
  rcases step_cases s with ⟨-, hs⟩ | ⟨w, rest, -, hs⟩ | ⟨pending, rest, -, hs⟩
  · obtain rfl : s = t := by simpa [hstep] using hs.symm
    exact h
  · exact runCommand_keeps_inv (inv_withPort h rest) (hs.symm.trans hstep)
  · obtain rfl : (s.withPort rest).afterReset = t := by simpa [hstep] using hs.symm
    exact inv_afterReset h.cfg_legal

/-- Settles O55: the reset state is what reset makes of it, and its parameters are legal. -/
theorem resetMeetsInvariant : Obligations.ResetMeetsInvariant :=
  inv_afterReset (s := State.reset) (by decide)

end Sys2Proof.Proofs
end

section
/-! Runs (30_encoding.md R43, 70_reset_and_hazards.md R120): every input is taken in one step, and a list of commands
runs command by command. -/

namespace Sys2Proof.Proofs

open Sys2Proof.Machine

/-! ### Every input is taken -/

/-- A command word's answer: a response, with data 0 on an error, and the port as it was. -/
theorem runCommand_responds (w : Cmd) (s : State) :
    ∃ t r, runCommand w s = .next t ∧ t.rsp = some r ∧ t.port = s.port ∧ (r.status ≠ .ok → r.data = 0) := by
  rcases runCommand_cases w s with ⟨-, hr⟩ | ⟨-, e, -, hr⟩ | ⟨-, i, -, hr⟩
  · exact ⟨_, _, hr, rfl, rfl, fun _ => rfl⟩
  · exact ⟨_, _, hr, rfl, rfl, fun _ => rfl⟩
  · obtain ⟨t, ht, heffect⟩ := exec_hasEffect i s
    rw [hr]
    rcases effect_status heffect with ⟨d, hrsp, -, -⟩ | ⟨e, -, -, rfl⟩
    · exact ⟨t, _, ht, hrsp, effect_port heffect, fun hne => absurd rfl hne⟩
    · exact ⟨_, _, ht, rfl, rfl, fun _ => rfl⟩

/-- Settles O7. -/
theorem oneResponsePerCommand : Obligations.OneResponsePerCommand := by
  intro s w rest hport
  rw [step_of_command hport]
  exact runCommand_responds w (s.withPort rest)

theorem step_of_empty {s : State} (h : s.port = []) : step s = .next s := by
  simp only [step, serve, h, wait_eq]

/-- A step takes the oldest input and no other. -/
theorem exists_step_of_cons {s : State} {input : HostInput} {rest : List HostInput} (h : s.port = input :: rest) :
    ∃ t, step s = .next t ∧ t.port = rest := by
  cases input with
  | command w =>
    obtain ⟨t, -, hstep, -, hport, -⟩ := oneResponsePerCommand s w rest h
    exact ⟨t, hstep, hport⟩
  | reset pending => exact ⟨_, step_of_reset h, rfl⟩

/-! ### Runs of several steps -/

theorem run_succ {s t : State} (h : step s = .next t) (n : Nat) :
    Sys2Proof.core.run (n + 1) s = Sys2Proof.core.run n t := by
  have hcore : Sys2Proof.core.step s = .next t := h
  simp only [Host.Core.run, hcore]

theorem run_one {s t : State} (h : step s = .next t) : Sys2Proof.core.run 1 s = .next t := run_succ h 0

/-- A run goes on from where its first part ends. -/
theorem run_add {m : Nat} {s t : State} (h : Sys2Proof.core.run m s = .next t) (n : Nat) :
    Sys2Proof.core.run (m + n) s = Sys2Proof.core.run n t := by
  induction m generalizing s with
  | zero =>
    obtain rfl : s = t := Host.Outcome.next.inj h
    rw [Nat.zero_add]
  | succ m ih =>
    rw [Nat.add_right_comm]
    simp only [Host.Core.run] at h ⊢
    split at h
    · exact ih h
    · cases h
    · cases h

/-- With nothing presented the block waits, for any number of steps. -/
theorem run_of_empty {s : State} (h : s.port = []) (n : Nat) : Sys2Proof.core.run n s = .next s := by
  induction n with
  | zero => rfl
  | succ n ih => rw [run_succ (step_of_empty h), ih]

/-- Settles O8, by induction on the inputs: each is taken in one step, and on the empty port the block waits. -/
theorem inputListRunsToItsEnd : Obligations.InputListRunsToItsEnd := by
  intro s
  induction hport : s.port generalizing s with
  | nil => exact ⟨s, hport, fun n => run_of_empty hport _⟩
  | cons input rest ih =>
    obtain ⟨t, hstep, hrest⟩ := exists_step_of_cons hport
    obtain ⟨u, hempty, hrun⟩ := ih t hrest
    refine ⟨u, hempty, fun n => ?_⟩
    rw [List.length_cons, Nat.add_right_comm, run_succ hstep]
    exact hrun n

/-! ### The fault state (60_exceptions.md R102) -/

/-- A faulted block changes nothing on a command word but its response: the gate closes, or ST_RD reads. -/
theorem step_of_faulted {s : State} {w : Cmd} {rest : List HostInput} (h : s.port = .command w :: rest)
    (hf : s.fault = true) : ∃ st d, step s = .next ((s.withPort rest).withRsp st d) := by
  rw [step_of_command h]
  by_cases hw : w = stRdWord
  · subst hw
    exact ⟨_, _, (runCommand_stRdWord _).trans (exec_stRd _)⟩
  · exact ⟨_, _, runCommand_of_gateClosed (s := s.withPort rest) hf hw⟩

/-- Settles O48, by induction on the steps: each waits or is the step of a faulted block on a command word. -/
theorem faultStateLeftOnlyByReset : Obligations.FaultStateLeftOnlyByReset := by
  intro n
  induction n with
  | zero => exact fun s _ _ => ⟨s, rfl, rfl⟩
  | succ n ih =>
    intro s hf hnoReset
    cases hport : s.port with
    | nil => exact ⟨s, run_of_empty hport _, rfl⟩
    | cons input rest =>
      rw [hport] at hnoReset
      cases input with
      | reset pending => exact absurd List.mem_cons_self (hnoReset pending)
      | command w =>
        obtain ⟨st, d, hstep⟩ := step_of_faulted hport hf
        obtain ⟨t, hrun, ht⟩ :=
          ih ((s.withPort rest).withRsp st d) hf fun p hp => hnoReset p (List.mem_cons_of_mem _ hp)
        exact ⟨t, (run_succ hstep n).trans hrun, ht⟩

/-! ### Runs of commands -/

/-- A block that is not faulted runs the command it is presented (R14, R52). -/
theorem step_of_instr {s : State} {i : Instr} {is : List Instr} {rest : List HostInput} (hf : s.fault = false)
    (h : s.port = commandInputs (i :: is) ++ rest) :
    step s = exec i (s.withPort (commandInputs is ++ rest)) :=
  stepRunsDecodedCommand s (encode i) (commandInputs is ++ rest) i h (.inl hf) (decodeOfEncode i)

theorem commandInputs_append (is js : List Instr) :
    commandInputs (is ++ js) = commandInputs is ++ commandInputs js := List.map_append

/-- CRC_BYTEs fold their bytes into a written accumulator (R61) and change nothing else but the port and the
response. -/
theorem run_crcBytes (bytes : List Byte) {s : State} {acc : Word} {rest : List HostInput} (hf : s.fault = false)
    (hacc : s.crcAcc = some acc) (hport : s.port = commandInputs (bytes.map .crcByte) ++ rest) :
    ∃ r, Sys2Proof.core.run bytes.length s
      = .next { s with port := rest, crcAcc := some (bytes.foldl crcUpdate acc), rsp := r } := by
  induction bytes generalizing s acc with
  | nil =>
    obtain rfl : s.port = rest := hport
    have hs : { s with crcAcc := some acc } = s := by rw [← hacc]
    exact ⟨s.rsp, congrArg Host.Outcome.next hs.symm⟩
  | cons b bytes ih =>
    have hstep := (step_of_instr hf hport).trans
      (exec_crcByte_of_written (s := s.withPort (commandInputs (bytes.map .crcByte) ++ rest)) hacc b)
    obtain ⟨r, hrun⟩ := ih
      (s := ((s.withPort (commandInputs (bytes.map .crcByte) ++ rest)).withCrcAcc (crcUpdate acc b)).responded 0)
      hf rfl rfl
    exact ⟨r, (run_succ hstep bytes.length).trans hrun⟩

/-- CRC_BYTEs and a CRC_FINAL (R61, R62). -/
theorem run_crcBytes_final (bytes : List Byte) {s : State} {acc : Word} {rest : List HostInput} (hf : s.fault = false)
    (hacc : s.crcAcc = some acc) (hport : s.port = commandInputs (bytes.map .crcByte ++ [.crcFinal]) ++ rest) :
    Sys2Proof.core.run (bytes.length + 1) s
      = .next { s with port := rest, crcAcc := some (bytes.foldl crcUpdate acc),
                       rsp := some { status := .ok, data := bytes.foldl crcUpdate acc ^^^ 0xFFFFFFFF } } := by
  rw [commandInputs_append, List.append_assoc] at hport
  obtain ⟨r, hrun⟩ := run_crcBytes bytes hf hacc hport
  have hstep := step_of_instr (is := []) (rest := rest)
    (s := { s with port := commandInputs [.crcFinal] ++ rest, crcAcc := some (bytes.foldl crcUpdate acc), rsp := r })
    hf rfl
  rw [run_add hrun]
  exact run_one (hstep.trans (exec_crcFinal_of_written rfl))

/-- The accumulator is the CRC without its final xor (R57). -/
theorem foldl_crcUpdate_eq (bytes : List Byte) : bytes.foldl crcUpdate 0xFFFFFFFF = crc bytes ^^^ 0xFFFFFFFF := by
  rw [crc, BitVec.xor_assoc, BitVec.xor_self, BitVec.xor_zero]

/-- R113: the CRC of more bytes goes on from the accumulator of the first. -/
theorem crc_append (first more : List Byte) :
    crc (first ++ more) = more.foldl crcUpdate (crc first ^^^ 0xFFFFFFFF) ^^^ 0xFFFFFFFF := by
  rw [← foldl_crcUpdate_eq, ← List.foldl_append, crc]

/-- Settles O23: CRC_INIT, then the bytes folded from its value, then CRC_FINAL. -/
theorem crcSequenceRespondsCrc : Obligations.CrcSequenceRespondsCrc := by
  intro s bytes rest hf hport
  have hstep := (step_of_instr hf hport).trans (exec_crcInit _)
  have hrun := run_crcBytes_final bytes (rest := rest)
    (s := ((s.withPort (commandInputs (bytes.map .crcByte ++ [.crcFinal]) ++ rest)).withCrcAcc 0xFFFFFFFF).responded 0)
    hf rfl rfl
  rw [run_succ hstep, ← foldl_crcUpdate_eq]
  exact hrun

/-- Settles O24: the first sequence leaves the accumulator that the further bytes are folded into. -/
theorem crcContinuesWithoutInit : Obligations.CrcContinuesWithoutInit := by
  intro s first more hf hport
  rw [List.append_assoc, commandInputs_append] at hport
  have hfirst := crcSequenceRespondsCrc s first _ hf hport
  have hmore := run_crcBytes_final more (rest := [])
    (s := { s with port := commandInputs (more.map .crcByte ++ [.crcFinal]),
                   crcAcc := some (crc first ^^^ 0xFFFFFFFF), rsp := some { status := .ok, data := crc first } })
    hf rfl (List.append_nil _).symm
  have hlength : first.length + more.length + 3 = first.length + 2 + (more.length + 1) := by omega
  rw [hlength, run_add hfirst]
  exact ⟨_, hmore, congrArg (fun d => some (Response.mk .ok d)) (crc_append first more).symm, rfl⟩

end Sys2Proof.Proofs
end

section
/-! The chain of PK_PUTs of PK_SAMPLES (30_encoding.md R55, 41_bitpacker.md R67): the samples land in order. -/

namespace Sys2Proof.Proofs

open Sys2Proof.Machine

/-- The commands of PK_SAMPLES from bit offset `off` on (R55). -/
def pkPutChain (n : BitVec 5) (off : Nat) (vals : List (BitVec 16)) : List Instr :=
  vals.mapIdx fun j v => .pkPut (BitVec.ofNat 32 (off + j * n.toNat)) v n

/-- The first sample stands at `off`, the others are the chain from `off + n` on. -/
theorem pkPutChain_cons (n : BitVec 5) (off : Nat) (v : BitVec 16) (vals : List (BitVec 16)) :
    pkPutChain n off (v :: vals) = .pkPut (BitVec.ofNat 32 off) v n :: pkPutChain n (off + n.toNat) vals := by
  have hoff : ∀ j, off + (j + 1) * n.toNat = off + n.toNat + j * n.toNat := fun j => by rw [Nat.succ_mul]; omega
  simp only [pkPutChain, List.mapIdx_cons, Nat.zero_mul, Nat.add_zero, hoff]

/-- What the chain leaves in the buffer: bit `n - 1 - i` of sample `j` ORed into bit offset `off + j*n + i`, and every
other bit as before. -/
def SamplesLanded (n off : Nat) (vals : List (BitVec 16)) (s t : State) : Prop :=
  (∀ j i, j < vals.length → i < n →
      t.pkBit (off + j * n + i) = (s.pkBit (off + j * n + i) || (vals.getD j 0).getLsbD (n - 1 - i)))
    ∧ ∀ k, k < off ∨ off + vals.length * n ≤ k → t.pkBit k = s.pkBit k

/-- One sample, then the others behind it. -/
theorem samplesLanded_cons {n off : Nat} {v : BitVec 16} {vals : List (BitVec 16)} {s u t : State}
    (hput : u.pkBuf = put s.pkBuf off v n) (h : SamplesLanded n (off + n) vals u t) :
    SamplesLanded n off (v :: vals) s t := by
  obtain ⟨hin, hout⟩ := h
  have huIn : ∀ i, i < n → u.pkBit (off + i) = (s.pkBit (off + i) || v.getLsbD (n - 1 - i)) := by
    intro i hi
    rw [State.pkBit, hput]
    exact pkReadBit_put_inside s.pkBuf off v hi
  have huOut : ∀ k, k < off ∨ off + n ≤ k → u.pkBit k = s.pkBit k := by
    intro k hk
    rw [State.pkBit, hput]
    exact pkReadBit_put_outside s.pkBuf v hk
  refine ⟨fun j i hj hi => ?_, fun k hk => ?_⟩
  · cases j with
    | zero =>
      rw [Nat.zero_mul, Nat.add_zero, hout (off + i) (.inl (by omega)), huIn i hi]
      rfl
    | succ j =>
      have hoff : off + (j + 1) * n + i = off + n + j * n + i := by rw [Nat.succ_mul]; omega
      rw [hoff, hin j i (Nat.lt_of_succ_lt_succ hj) hi, huOut _ (.inr (by omega))]
      rfl
  · rw [List.length_cons, Nat.succ_mul] at hk
    rw [hout k (by omega), huOut k (by omega)]

/-- The chain runs without a fault and its samples land, by induction on the samples. -/
theorem run_pkPutChain (n : BitVec 5) (h1 : 1 ≤ n.toNat) (h16 : n.toNat ≤ 16) {cap : BitVec 32}
    {rest : List HostInput} (vals : List (BitVec 16)) {off : Nat} {s : State} (hf : s.fault = false)
    (hcap : s.pkCap = some cap) (hfits : off + vals.length * n.toNat ≤ cap.toNat)
    (hport : s.port = commandInputs (pkPutChain n off vals) ++ rest) :
    ∃ t, Sys2Proof.core.run vals.length s = .next t ∧ t.port = rest ∧ t.fault = false ∧ t.pkCap = some cap
      ∧ SamplesLanded n.toNat off vals s t := by
  induction vals generalizing off s with
  | nil => exact ⟨s, rfl, hport, hf, hcap, nofun, fun _ _ => rfl⟩
  | cons v vals ih =>
    rw [List.length_cons, Nat.succ_mul] at hfits
    have hoff : (BitVec.ofNat 32 off).toNat = off := by
      rw [BitVec.toNat_ofNat, Nat.mod_eq_of_lt (by omega)]
    rw [pkPutChain_cons] at hport
    have hstep := (step_of_instr hf hport).trans
      (exec_pkPut_of_fits (s := s.withPort (commandInputs (pkPutChain n (off + n.toNat) vals) ++ rest)) hcap
        (by omega) (by omega) v)
    rw [hoff] at hstep
    obtain ⟨t, hrun, ht, hft, hcapt, hlanded⟩ := ih (off := off + n.toNat)
      (s := ((s.withPort (commandInputs (pkPutChain n (off + n.toNat) vals) ++ rest)).withPkBuf
        (put s.pkBuf off v n.toNat)).responded (BitVec.ofNat 32 (off + n.toNat)))
      hf hcap (by omega) rfl
    exact ⟨t, (run_succ hstep vals.length).trans hrun, ht, hft, hcapt, samplesLanded_cons rfl hlanded⟩

/-- Settles O28: the statement's chain is `pkPutChain`. -/
theorem pkSamplesLandInOrder : Obligations.PkSamplesLandInOrder :=
  fun _ _ _ n vals _ hf hcap h1 h16 hfits hport => run_pkPutChain n h1 h16 vals hf hcap hfits hport

end Sys2Proof.Proofs
end

section
/-! The inverse filter (42_filter.md R75 to R77), and what FL_INV and FL_SEL answer from the rows (R87, R91). -/

namespace Sys2Proof.Proofs

open Sys2Proof.Machine

/-! ### The inverse filter (R75) -/

/-- The loop only appends to the row made so far. -/
theorem exists_unfiltFrom_eq_append (k : FilterKind) (p : Option (List Byte)) (bpp : Nat) (x ys : List Byte) :
    ∃ z, unfiltFrom k p bpp x ys = x ++ z := by
  induction ys generalizing x with
  | nil => exact ⟨[], (List.append_nil x).symm⟩
  | cons y ys ih =>
    obtain ⟨z, hz⟩ := ih (x ++ [y + pred k (left x bpp x.length) (up p x.length) (upperLeft p bpp x.length)])
    exact ⟨_, hz.trans (List.append_assoc _ _ _)⟩

/-- Each byte of the loop's result behind `x`: `left` may be taken from the whole result, since the bytes it looks at
are made by then. -/
theorem unfiltFrom_getD (k : FilterKind) (p : Option (List Byte)) {bpp : Nat} (hb : 1 ≤ bpp) (x ys : List Byte)
    {j : Nat} (hj : j < ys.length) :
    (unfiltFrom k p bpp x ys).getD (x.length + j) 0
      = ys.getD j 0 + pred k (left (unfiltFrom k p bpp x ys) bpp (x.length + j)) (up p (x.length + j))
          (upperLeft p bpp (x.length + j)) := by
  induction ys generalizing x j with
  | nil => exact absurd hj (Nat.not_lt_zero j)
  | cons y ys ih =>
    rw [unfiltFrom]
    cases j with
    | zero =>
      obtain ⟨z, hz⟩ := exists_unfiltFrom_eq_append k p bpp
        (x ++ [y + pred k (left x bpp x.length) (up p x.length) (upperLeft p bpp x.length)]) ys
      rw [hz, List.append_assoc, Nat.add_zero, left_append x _ bpp hb]
      simp
    | succ j =>
      have hind := ih (x ++ [y + pred k (left x bpp x.length) (up p x.length) (upperLeft p bpp x.length)])
        (Nat.lt_of_succ_lt_succ hj)
      rw [List.length_append, List.length_singleton, Nat.add_assoc, Nat.add_comm 1 j] at hind
      exact hind

/-- R75: the bytes of the reconstructed row. -/
theorem unfilt_getD (k : FilterKind) (y : List Byte) (p : Option (List Byte)) {bpp i : Nat} (hb : 1 ≤ bpp)
    (hi : i < y.length) :
    (unfilt k y p bpp).getD i 0
      = y.getD i 0 + pred k (left (unfilt k y p bpp) bpp i) (up p i) (upperLeft p bpp i) := by
  simpa only [unfilt, List.length_nil, Nat.zero_add] using unfiltFrom_getD k p hb [] y hi

/-- Settles O31: the loop started on no bytes. -/
theorem inverseFilterBytes : Obligations.InverseFilterBytes :=
  fun k y p bpp _ hb hi => ⟨unfilt_length k y p bpp, unfilt_getD k y p hb hi⟩

/-! ### Inverse after forward (R76) -/

/-- R74, as a byte of the row. -/
theorem filt_getD (k : FilterKind) (x : List Byte) (p : Option (List Byte)) (bpp : Nat) {i : Nat} (hi : i < x.length) :
    (filt k x p bpp).getD i 0 = x.getD i 0 - pred k (left x bpp i) (up p i) (upperLeft p bpp i) := by
  rw [List.getD_eq_getElem?_getD, filt_getElem? k x p bpp i hi, Option.getD_some]

/-- `left` looks at earlier bytes only. -/
theorem left_congr {x x' : List Byte} {bpp i : Nat} (hb : 1 ≤ bpp) (h : ∀ j < i, x.getD j 0 = x'.getD j 0) :
    left x bpp i = left x' bpp i := by
  unfold left
  split
  · next hi => exact h (i - bpp) (by omega)
  · rfl

/-- The bytes of the row come back one by one: the predictor sees bytes that are back already. -/
theorem unfilt_filt_getD (k : FilterKind) (x : List Byte) (p : Option (List Byte)) {bpp : Nat} (hb : 1 ≤ bpp) (i : Nat)
    (hi : i < x.length) : (unfilt k (filt k x p bpp) p bpp).getD i 0 = x.getD i 0 := by
  induction i using Nat.strong_induction_on with
  | _ i ih =>
    have hleft : left (unfilt k (filt k x p bpp) p bpp) bpp i = left x bpp i :=
      left_congr hb fun j hj => ih j hj (hj.trans hi)
    rw [unfilt_getD k _ p hb (by rwa [filt_length]), filt_getD k x p bpp hi, hleft, BitVec.sub_add_cancel]

/-- R76: the previous row may be of any length. -/
theorem unfilt_filt (k : FilterKind) (x : List Byte) (p : Option (List Byte)) {bpp : Nat} (hb : 1 ≤ bpp) :
    unfilt k (filt k x p bpp) p bpp = x := by
  have hlength : (unfilt k (filt k x p bpp) p bpp).length = x.length := by rw [unfilt_length, filt_length]
  refine List.ext_getElem hlength fun i h h' => ?_
  rw [← List.getD_eq_getElem _ 0 h, ← List.getD_eq_getElem _ 0 h']
  exact unfilt_filt_getD k x p hb i h'

/-- Settles O32. -/
theorem inverseUndoesForward : Obligations.InverseUndoesForward :=
  fun k x p _ hb _ _ => unfilt_filt k x p hb

/-! ### Missing neighbours (R77) -/

/-- A neighbour that is the Paeth sum itself is picked, since no distance is below 0. -/
theorem paeth_eq_of_sum {a b c v : Byte} (hsum : (a.toNat : Int) + b.toNat - c.toNat = v.toNat)
    (hnearest : paethDist a b c (paeth a b c) ≤ paethDist a b c v) : paeth a b c = v := by
  rw [paethDist, paethDist, hsum, sub_self, abs_zero, abs_nonpos_iff, sub_eq_zero] at hnearest
  exact BitVec.eq_of_toNat_eq (Int.ofNat.inj hnearest).symm

theorem paeth_left_only (a : Byte) : paeth a 0 0 = a := by
  obtain ⟨-, -, -, hnearest, -, -⟩ := paethPicksNearest a 0 0
  exact paeth_eq_of_sum (by simp) hnearest

theorem paeth_up_only (b : Byte) : paeth 0 b 0 = b := by
  obtain ⟨-, -, -, -, hnearest, -⟩ := paethPicksNearest 0 b 0
  exact paeth_eq_of_sum (by simp) hnearest

/-- R70: the first `bpp` bytes have no left neighbour. -/
theorem left_of_lt (x : List Byte) {bpp i : Nat} (h : i < bpp) : left x bpp i = 0 := by
  rw [left, if_neg (Nat.not_le.mpr h)]

/-- R70: nor have they an upper left one. -/
theorem upperLeft_of_lt (p : Option (List Byte)) {bpp i : Nat} (h : i < bpp) : upperLeft p bpp i = 0 := by
  cases p with
  | none => rfl
  | some row => exact left_of_lt row h

/-- Settles O33: with no previous row the upper neighbours are 0, at the first `bpp` bytes the left ones are. -/
theorem missingNeighboursCollapseFilters : Obligations.MissingNeighboursCollapseFilters := by
  refine ⟨fun x bpp => ⟨rfl, ?_, fun i hi => filt_getD .average x none bpp hi⟩, fun x p bpp i hi hb => ?_⟩
  · simp only [filt, pred, up, upperLeft, paeth_left_only]
  · simp only [filt_getD _ x p bpp hi, left_of_lt x hb, upperLeft_of_lt p hb, pred, paeth_up_only, and_self]

/-! ### Filter commands that succeeded -/

/-- An error's response is not OK. -/
theorem eq_ok_of_raised {r : Result} {s t : State} {e : Status} {d : Word} (hr : r = .next (s.raised e))
    (h : r = .next t) (hok : t.rsp = some { status := .ok, data := d }) : e = .ok := by
  obtain rfl : s.raised e = t := Host.Outcome.next.inj (hr.symm.trans h)
  exact congrArg Response.status (Option.some.inj hok)

theorem rowStored_of_storeRow {k : FilterKind} {row : List Byte} {s t : State} (h : storeRow k row s = .next t) :
    RowStored s t row k := by
  obtain ⟨t', h', hstored⟩ := storeRow_rowStored k row s
  obtain rfl : t' = t := Host.Outcome.next.inj (h'.symm.trans h)
  exact hstored

/-- FL_FWD or FL_INV that succeeded had a kind and its rows, and stored the transformed row. -/
theorem fixedFilter_succeeded {f : FilterKind → List Byte → Option (List Byte) → Nat → List Byte} {kind : BitVec 3}
    {s t : State} {len : BitVec 16} {d : Word} (hlen : s.flLen = some len) (h : fixedFilter f kind s = .next t)
    (hok : t.rsp = some { status := .ok, data := d }) :
    ∃ k x p, kindOfField kind = some k ∧ RowsAre s len.toNat x p ∧ RowStored s t (f k x p s.flBpp.toNat) k := by
  rcases fixedFilter_cases f kind s with
    ⟨-, hr⟩ | ⟨len', hlen', ⟨-, hr⟩ | ⟨k, hk, ⟨-, hr⟩ | ⟨x, p, ho, hr⟩⟩⟩
  · exact absurd (eq_ok_of_raised hr h hok) (by decide)
  · exact absurd (eq_ok_of_raised hr h hok) (by decide)
  · exact absurd (eq_ok_of_raised hr h hok) (by decide)
  · obtain rfl : len = len' := Option.some.inj (hlen.symm.trans hlen')
    exact ⟨k, x, p, hk, (rowOperands_eq_some_iff_rowsAre s len.toNat x p).mp ho,
      rowStored_of_storeRow (hr.symm.trans h)⟩

/-- A state has one pair of rows. -/
theorem rowsAre_unique {s : State} {len : Nat} {x y : List Byte} {p q : Option (List Byte)} (h : RowsAre s len x p)
    (h' : RowsAre s len y q) : x = y ∧ p = q := by
  have hx := (rowOperands_eq_some_iff_rowsAre s len x p).mpr h
  have hy := (rowOperands_eq_some_iff_rowsAre s len y q).mpr h'
  exact Prod.ext_iff.mp (Option.some.inj (hx.symm.trans hy))

/-- A state with the same previous row and another row in CUR. -/
theorem rowsAre_of_samePrev {s u : State} {len : Nat} {x y : List Byte} {p : Option (List Byte)}
    (h : RowsAre s len x p) (hpv : u.flPv = s.flPv)
    (hprev : s.flPv = true → ∀ i, i < len → u.prevCell i = s.prevCell i) (hy : y.length = len)
    (hcur : ∀ i, i < len → u.curCell i = y[i]?) : RowsAre u len y p := by
  obtain ⟨-, -, hp⟩ := h
  refine ⟨hy, hcur, ?_⟩
  rw [hpv]
  refine hp.imp id fun ⟨hpv', row, hrow, hlength, hcells⟩ => ⟨hpv', row, hrow, hlength, fun i hi => ?_⟩
  rw [hprev hpv' i hi, hcells i hi]

/-- Settles O45: FL_INV reads the stored row and the same previous row, and by R76 its own row is the first one. -/
theorem flInvReconstructsFlFwdRow : Obligations.FlInvReconstructsFlFwdRow := by
  intro s t u v kind len d e hlen hb1 _ hfwd hfwdOk hulen hubpp hupv hprev hcur hinv hinvOk i hi
  obtain ⟨k, x, p, hk, hrows, -, hout, -⟩ := fixedFilter_succeeded hlen hfwd hfwdOk
  obtain ⟨k', y, q, hk', hrows', -, hout', -⟩ := fixedFilter_succeeded (hulen.trans hlen) hinv hinvOk
  obtain rfl : k = k' := Option.some.inj (hk.symm.trans hk')
  rw [filt_length, hrows.1] at hout
  have hread : RowsAre u len.toNat (filt k x p s.flBpp.toNat) p :=
    rowsAre_of_samePrev hrows hupv hprev ((filt_length _ _ _ _).trans hrows.1)
      fun j hj => (hcur j hj).trans (hout j hj)
  obtain ⟨rfl, rfl⟩ := rowsAre_unique hread hrows'
  rw [hubpp, unfilt_filt k x p hb1, hrows.1] at hout'
  rw [hout' i hi, hrows.2.1 i hi]

/-! ### FL_SEL (R91) -/

/-- A row read is determined by its cells. -/
theorem readFrom_congr {u : Option Byte} {m m' : Memory} {a n : Nat}
    (h : ∀ i, i < n → m.read u (a + i) = m'.read u (a + i)) : m.readFrom u a n = m'.readFrom u a n := by
  induction n generalizing a with
  | zero => rfl
  | succ n ih =>
    have htail : m.readFrom u (a + 1) n = m'.readFrom u (a + 1) n :=
      ih fun i hi => by simpa [Nat.add_assoc, Nat.add_comm 1 i] using h (i + 1) (by omega)
    simp only [Memory.readFrom, htail, show m.read u a = m'.read u a from h 0 (Nat.succ_pos n)]

/-- The operands are determined by FL_PV and the cells R80 names. -/
theorem rowOperands_congr {s s' : State} {len : Nat} (hpv : s.flPv = s'.flPv)
    (hcur : ∀ i, i < len → s.curCell i = s'.curCell i)
    (hprev : s.flPv = true → ∀ i, i < len → s.prevCell i = s'.prevCell i) :
    rowOperands len s = rowOperands len s' := by
  have hcurRow : s.cur.readFrom rowUnlisted 0 len = s'.cur.readFrom rowUnlisted 0 len :=
    readFrom_congr fun i hi => by rw [Nat.zero_add]; exact hcur i hi
  have hprevRow : prevOperand len s = prevOperand len s' := by
    unfold prevOperand
    rw [← hpv]
    split
    · next h =>
      exact congrArg (Option.map some) (readFrom_congr fun i hi => by rw [Nat.zero_add]; exact hprev h i hi)
    · rfl
  simp only [rowOperands, hcurRow, hprevRow]

/-- Settles O46: both states have the same operands, so the same checks pass, the same kind is selected and the same
row is stored. -/
theorem flSelDependsOnRowsOnly : Obligations.FlSelDependsOnRowsOnly := by
  intro s s' t t' gray depth len d hlen hlen' hbpp hpv hcur hprev h h' hok
  by_cases hd : legalDepth depth = true
  · cases ho : rowOperands len.toNat s with
    | none => exact absurd (eq_ok_of_raised (exec_flSel_of_noOperands hlen hd ho gray) h hok) (by decide)
    | some operands =>
      obtain ⟨x, p⟩ := operands
      have ho' : rowOperands len.toNat s' = some (x, p) := (rowOperands_congr hpv hcur hprev).symm.trans ho
      rw [exec_flSel_of_operands hlen hd ho gray] at h
      rw [exec_flSel_of_operands hlen' hd ho' gray, ← hbpp] at h'
      obtain ⟨ht, hout, -⟩ := rowStored_of_storeRow h
      obtain ⟨ht', hout', -⟩ := rowStored_of_storeRow h'
      rw [filt_length, rowOperands_length ho] at hout hout'
      exact ⟨(congrArg State.rsp ht').trans (congrArg State.rsp ht).symm,
        (congrArg State.tag ht').trans (congrArg State.tag ht).symm,
        fun i hi => (hout' i hi).trans (hout i hi).symm⟩
  · exact absurd (eq_ok_of_raised (exec_flSel_of_illegalDepth hlen hd gray) h hok) (by decide)

end Sys2Proof.Proofs
end

section
/-! The functional units (00_scope.md R2): what a command of a unit does and responds is a function of the unit's own
elements and the parameters. -/

namespace Sys2Proof.Proofs

open Sys2Proof.Machine

/-! ### The elements of a unit -/

/-- `b` with the CRC unit of `s`. -/
def withCrcOf (b s : State) : State := { b with crcAcc := s.crcAcc }

/-- `b` with the packer of `s`. -/
def withPackerOf (b s : State) : State := { b with pkCap := s.pkCap, pkBuf := s.pkBuf }

/-- `b` with the filter unit of `s`. -/
def withFilterOf (b s : State) : State :=
  { b with flLen := s.flLen, flBpp := s.flBpp, flPv := s.flPv, cur := s.cur, prev := s.prev, out := s.out,
           tag := s.tag }

/-- What a command `f` does on every state that holds the unit of `s`, `graft` putting the unit's elements into a
state: it raises one error, or it leaves the elements of `u` in the unit and responds `d`. -/
inductive UnitAnswer (graft : State → State → State) (s : State) (f : State → Result) : Prop
  | raises (e : Status) (h : ∀ b : State, b.cfg = s.cfg → f (graft b s) = .next ((graft b s).raised e))
  | responds (d : Word) (u : State) (h : ∀ b : State, b.cfg = s.cfg → f (graft b s) = .next ((graft b u).responded d))

/-- Two states with the same unit: both raise the same error, or both get the same elements and the same response. -/
theorem unitAnswer_both {graft : State → State → State} {s s' t : State} {f : State → Result}
    (hanswer : UnitAnswer graft s f) (hself : graft s s = s) (hcfg : s'.cfg = s.cfg) (hsame : graft s' s = s')
    (h : f s = .next t) :
    (∃ e, t = s.raised e ∧ f s' = .next (s'.raised e))
    ∨ (∃ d u, t = (graft s u).responded d ∧ f s' = .next ((graft s' u).responded d)) := by
  cases hanswer with
  | raises e ha =>
    have hs := ha s rfl
    have hs' := ha s' hcfg
    rw [hself, h] at hs
    rw [hsame] at hs'
    exact .inl ⟨e, Host.Outcome.next.inj hs, hs'⟩
  | responds d u ha =>
    have hs := ha s rfl
    have hs' := ha s' hcfg
    rw [hself, h] at hs
    rw [hsame] at hs'
    exact .inr ⟨d, u, Host.Outcome.next.inj hs, hs'⟩

/-! ### The CRC unit -/

theorem crc_unitAnswer {i : Instr} (hi : i.op ∈ [Op.crcInit, .crcByte, .crcFinal, .crcTbl]) (s : State) :
    UnitAnswer withCrcOf s (exec i) := by
  cases i with
  | crcInit => exact .responds 0 (s.withCrcAcc 0xFFFFFFFF) fun b _ => exec_crcInit (withCrcOf b s)
  | crcByte byte =>
    cases h : s.crcAcc with
    | none => exact .raises .notInit fun b _ => exec_crcByte_of_unwritten (s := withCrcOf b s) h byte
    | some acc =>
      exact .responds 0 (s.withCrcAcc (crcUpdate acc byte)) fun b _ =>
        exec_crcByte_of_written (s := withCrcOf b s) h byte
  | crcFinal =>
    cases h : s.crcAcc with
    | none => exact .raises .notInit fun b _ => exec_crcFinal_of_unwritten (s := withCrcOf b s) h
    | some acc => exact .responds _ s fun b _ => exec_crcFinal_of_written (s := withCrcOf b s) h
  | crcTbl byte => exact .responds _ s fun b _ => exec_crcTbl (withCrcOf b s) byte
  | _ => simp [Instr.op] at hi

/-! ### The packer -/

theorem packer_unitAnswer {i : Instr} (hi : i.op ∈ [Op.pkInit, .pkPut, .pkRdb]) (s : State) :
    UnitAnswer withPackerOf s (exec i) := by
  cases i with
  | pkInit cap =>
    by_cases h : ceil8 cap.toNat > s.cfg.pkMaxBytes
    · exact .raises .capacity fun b hb =>
        exec_pkInit_of_tooLarge (s := withPackerOf b s) (show _ > b.cfg.pkMaxBytes from hb ▸ h)
    · exact .responds _ ((s.withPkBuf (s.pkBuf.clearBelow (ceil8 cap.toNat))).withPkCap cap) fun b hb =>
        exec_pkInit_of_fits (s := withPackerOf b s) (show ¬_ > b.cfg.pkMaxBytes from hb ▸ h)
  | pkPut off val n =>
    cases h : s.pkCap with
    | none => exact .raises .notInit fun b _ => exec_pkPut_of_unwritten (s := withPackerOf b s) h off val n
    | some cap =>
      by_cases hn : n.toNat < 1 ∨ n.toNat > 16
      · exact .raises .operand fun b _ => exec_pkPut_of_illegalWidth (s := withPackerOf b s) h hn off val
      by_cases hc : off.toNat + n.toNat > cap.toNat
      · exact .raises .capacity fun b _ => exec_pkPut_of_pastCapacity (s := withPackerOf b s) h hn hc val
      · exact .responds _ (s.withPkBuf (put s.pkBuf off.toNat val n.toNat)) fun b _ =>
          exec_pkPut_of_fits (s := withPackerOf b s) h hn hc val
  | pkRdb idx =>
    cases h : s.pkCap with
    | none => exact .raises .notInit fun b _ => exec_pkRdb_of_unwritten (s := withPackerOf b s) h idx
    | some cap =>
      by_cases hidx : idx.toNat < ceil8 cap.toNat
      · exact .responds ((s.pkByte idx.toNat).setWidth 32) s fun b _ =>
          exec_pkRdb_of_inRange (s := withPackerOf b s) h hidx
      · exact .raises .range fun b _ =>
          exec_pkRdb_of_outOfRange (s := withPackerOf b s) h (Nat.le_of_not_lt hidx)
  | _ => simp [Instr.op] at hi

/-! ### The filter unit -/

section
variable (s : State)

/-- A row stored: OUT and TAG are the unit's. -/
theorem unitAnswer_of_storeRow {f : State → Result} (k : FilterKind) (row : List Byte)
    (h : ∀ b : State, f (withFilterOf b s) = storeRow k row (withFilterOf b s)) : UnitAnswer withFilterOf s f :=
  .responds k.word (s.withOut (s.out.writeFrom rowUnlisted 0 row) (some k)) fun b _ => h b

/-- FL_FWD and FL_INV. -/
theorem fixedFilter_unitAnswer (f : FilterKind → List Byte → Option (List Byte) → Nat → List Byte) (kind : BitVec 3) :
    UnitAnswer withFilterOf s (fixedFilter f kind) := by
  rcases fixedFilter_cases f kind s with
    ⟨h, -⟩ | ⟨len, h, ⟨hk, -⟩ | ⟨k, hk, ⟨ho, -⟩ | ⟨x, p, ho, -⟩⟩⟩
  · exact .raises .notInit fun b _ => fixedFilter_of_unconfigured f (s := withFilterOf b s) h kind
  · exact .raises .filterType fun b _ => fixedFilter_of_noKind f (s := withFilterOf b s) h hk
  · exact .raises .unwritten fun b _ => fixedFilter_of_noOperands f (s := withFilterOf b s) h hk ho
  · exact unitAnswer_of_storeRow s k (f k x p s.flBpp.toNat) fun b =>
      fixedFilter_of_operands f (s := withFilterOf b s) h hk ho

theorem flCfg_unitAnswer (len : BitVec 16) (bpp : BitVec 4) (pv : Bool) :
    UnitAnswer withFilterOf s (exec (.flCfg len bpp pv)) := by
  by_cases hlen : len.toNat < 1 ∨ len.toNat > s.cfg.rowMax
  · exact .raises .operand fun b hb =>
      exec_flCfg_of_illegalLength (s := withFilterOf b s) (show _ ∨ _ > b.cfg.rowMax from hb ▸ hlen) bpp pv
  by_cases hbpp : bpp.toNat < 1 ∨ bpp.toNat > 8
  · exact .raises .operand fun b _ => exec_flCfg_of_illegalBpp (s := withFilterOf b s) hbpp len pv
  · exact .responds 0 ((s.withFlCfg len bpp pv).withOut [] none) fun b hb =>
      exec_flCfg_of_legal (s := withFilterOf b s) (show ¬(_ ∨ _ > b.cfg.rowMax) from hb ▸ hlen) hbpp pv

theorem flWr_unitAnswer (sel : RowSel) (idx : BitVec 16) (byte : Byte) :
    UnitAnswer withFilterOf s (exec (.flWr sel idx byte)) := by
  by_cases hidx : idx.toNat < s.cfg.rowMax
  · cases sel with
    | cur =>
      exact .responds 0 (s.withCur (s.cur.write rowUnlisted idx.toNat byte)) fun b hb =>
        exec_flWr_cur_of_inRange (s := withFilterOf b s) (show _ < b.cfg.rowMax from hb ▸ hidx) byte
    | prev =>
      exact .responds 0 (s.withPrev (s.prev.write rowUnlisted idx.toNat byte)) fun b hb =>
        exec_flWr_prev_of_inRange (s := withFilterOf b s) (show _ < b.cfg.rowMax from hb ▸ hidx) byte
  · exact .raises .range fun b hb =>
      exec_flWr_of_outOfRange (s := withFilterOf b s)
        (show _ ≥ b.cfg.rowMax from hb ▸ Nat.le_of_not_lt hidx) sel byte

theorem flSel_unitAnswer (gray : Bool) (depth : BitVec 5) : UnitAnswer withFilterOf s (exec (.flSel gray depth)) := by
  cases h : s.flLen with
  | none => exact .raises .notInit fun b _ => exec_flSel_of_unconfigured (s := withFilterOf b s) h gray depth
  | some len =>
    by_cases hd : legalDepth depth = true
    · cases ho : rowOperands len.toNat s with
      | none =>
        exact .raises .unwritten fun b _ => exec_flSel_of_noOperands (s := withFilterOf b s) h hd ho gray
      | some operands =>
        obtain ⟨x, p⟩ := operands
        exact unitAnswer_of_storeRow s (select x p s.flBpp.toNat gray depth.toNat)
          (filt (select x p s.flBpp.toNat gray depth.toNat) x p s.flBpp.toNat) fun b =>
          exec_flSel_of_operands (s := withFilterOf b s) h hd ho gray
    · exact .raises .bitDepth fun b _ => exec_flSel_of_illegalDepth (s := withFilterOf b s) h hd gray

theorem flRdo_unitAnswer (idx : BitVec 16) : UnitAnswer withFilterOf s (exec (.flRdo idx)) := by
  cases h : s.flLen with
  | none => exact .raises .notInit fun b _ => exec_flRdo_of_unconfigured (s := withFilterOf b s) h idx
  | some len =>
    by_cases hidx : idx.toNat < len.toNat
    · cases ho : s.outCell idx.toNat with
      | none => exact .raises .unwritten fun b _ => exec_flRdo_of_unwritten (s := withFilterOf b s) h hidx ho
      | some byte => exact .responds _ s fun b _ => exec_flRdo_of_written (s := withFilterOf b s) h hidx ho
    · exact .raises .range fun b _ =>
        exec_flRdo_of_outOfRange (s := withFilterOf b s) h (Nat.le_of_not_lt hidx)

theorem flRdt_unitAnswer : UnitAnswer withFilterOf s (exec .flRdt) := by
  cases h : s.flLen with
  | none => exact .raises .notInit fun b _ => exec_flRdt_of_unconfigured (s := withFilterOf b s) h
  | some len =>
    cases ht : s.tag with
    | none => exact .raises .unwritten fun b _ => exec_flRdt_of_untagged (s := withFilterOf b s) h ht
    | some k => exact .responds _ s fun b _ => exec_flRdt_of_tagged (s := withFilterOf b s) h ht

theorem shiftSource_withFilterOf (src : ShiftSrc) (b : State) :
    shiftSource src (withFilterOf b s) = shiftSource src s := by
  cases src <;> rfl

theorem flShift_unitAnswer (src : ShiftSrc) : UnitAnswer withFilterOf s (exec (.flShift src)) := by
  cases h : s.flLen with
  | none => exact .raises .notInit fun b _ => exec_flShift_of_unconfigured (s := withFilterOf b s) h src
  | some len =>
    cases hrow : (shiftSource src s).readFrom rowUnlisted 0 len.toNat with
    | none =>
      exact .raises .unwritten fun b _ =>
        exec_flShift_of_noRow (s := withFilterOf b s) h (by rwa [shiftSource_withFilterOf])
    | some row =>
      exact .responds 0 ((s.withPrev (s.prev.writeFrom rowUnlisted 0 row)).withFlPv true) fun b _ =>
        exec_flShift_of_row (s := withFilterOf b s) h (by rwa [shiftSource_withFilterOf])

theorem filter_unitAnswer {i : Instr}
    (hi : i.op ∈ [Op.flCfg, .flWr, .flFwd, .flSel, .flInv, .flRdo, .flRdt, .flShift]) :
    UnitAnswer withFilterOf s (exec i) := by
  cases i with
  | flCfg len bpp pv => exact flCfg_unitAnswer s len bpp pv
  | flWr sel idx byte => exact flWr_unitAnswer s sel idx byte
  | flFwd kind => exact fixedFilter_unitAnswer s filt kind
  | flSel gray depth => exact flSel_unitAnswer s gray depth
  | flInv kind => exact fixedFilter_unitAnswer s unfilt kind
  | flRdo idx => exact flRdo_unitAnswer s idx
  | flRdt => exact flRdt_unitAnswer s
  | flShift src => exact flShift_unitAnswer s src
  | _ => simp [Instr.op] at hi

end

/-- `unitAnswer_both` with both next states at hand. -/
theorem unitAnswer_both_next {graft : State → State → State} {s s' t t' : State} {f : State → Result}
    (hanswer : UnitAnswer graft s f) (hself : graft s s = s) (hcfg : s'.cfg = s.cfg) (hsame : graft s' s = s')
    (h : f s = .next t) (h' : f s' = .next t') :
    (∃ e, t = s.raised e ∧ t' = s'.raised e)
    ∨ (∃ d u, t = (graft s u).responded d ∧ t' = (graft s' u).responded d) := by
  rcases unitAnswer_both hanswer hself hcfg hsame h with ⟨e, ht, hs'⟩ | ⟨d, u, ht, hs'⟩
  · exact .inl ⟨e, ht, Host.Outcome.next.inj (h'.symm.trans hs')⟩
  · exact .inr ⟨d, u, ht, Host.Outcome.next.inj (h'.symm.trans hs')⟩

/-- Settles O49, unit by unit: the first half compares the state with itself, the second with one that has the same
unit. -/
theorem unitsAreIndependent : Obligations.UnitsAreIndependent := by
  intro i s s' t t' hcfg h h'
  refine ⟨fun hi => ?_, fun hi => ?_, fun hi => ?_⟩
  · have hanswer := crc_unitAnswer hi s
    constructor
    · rcases unitAnswer_both_next hanswer rfl rfl rfl h h with ⟨e, rfl, -⟩ | ⟨d, u, rfl, -⟩ <;> rfl
    · intro hacc
      have hsame : withCrcOf s' s = s' := by rw [withCrcOf, hacc]
      rcases unitAnswer_both_next hanswer rfl hcfg.symm hsame h h' with ⟨e, rfl, rfl⟩ | ⟨d, u, rfl, rfl⟩
      · exact ⟨rfl, hacc⟩
      · exact ⟨rfl, rfl⟩
  · have hanswer := packer_unitAnswer hi s
    constructor
    · rcases unitAnswer_both_next hanswer rfl rfl rfl h h with ⟨e, rfl, -⟩ | ⟨d, u, rfl, -⟩ <;> rfl
    · intro hcap hbuf
      have hsame : withPackerOf s' s = s' := by rw [withPackerOf, hcap, hbuf]
      rcases unitAnswer_both_next hanswer rfl hcfg.symm hsame h h' with ⟨e, rfl, rfl⟩ | ⟨d, u, rfl, rfl⟩
      · exact ⟨rfl, hcap, hbuf⟩
      · exact ⟨rfl, rfl, rfl⟩
  · have hanswer := filter_unitAnswer s hi
    constructor
    · rcases unitAnswer_both_next hanswer rfl rfl rfl h h with ⟨e, rfl, -⟩ | ⟨d, u, rfl, -⟩ <;> rfl
    · intro hlen hbpp hpv hcur hprev hout htag
      have hsame : withFilterOf s' s = s' := by rw [withFilterOf, hlen, hbpp, hpv, hcur, hprev, hout, htag]
      rcases unitAnswer_both_next hanswer rfl hcfg.symm hsame h h' with ⟨e, rfl, rfl⟩ | ⟨d, u, rfl, rfl⟩
      · exact ⟨rfl, hlen, hbpp, hpv, hcur, hprev, hout, htag⟩
      · exact ⟨rfl, rfl, rfl, rfl, rfl, rfl, rfl, rfl⟩

end Sys2Proof.Proofs
end

section
/-! What shows nowhere (10_state.md R22, R25): FL_BPP before an FL_CFG, and the bytes of PK_BUF past the capacity. -/

namespace Sys2Proof.Proofs

open Sys2Proof.Machine

/-! ### A change outside the unit of a command -/

/-- The change `c` touches neither the parameters nor the unit that `graft` puts in, nor what ends a command. -/
structure OutsideUnit (graft : State → State → State) (c : State → State) : Prop where
  self (s : State) : graft s s = s
  cfg (s : State) : (c s).cfg = s.cfg
  graft (s u : State) : graft (c s) u = c (graft s u)
  raised (s : State) (e : Status) : (c s).raised e = c (s.raised e)
  responded (s : State) (d : Word) : (c s).responded d = c (s.responded d)

/-- A command of the unit does the same before and after the change. -/
theorem exec_outsideUnit {graft : State → State → State} {c : State → State} (hc : OutsideUnit graft c) {i : Instr}
    {s t : State} (hanswer : UnitAnswer graft s (exec i)) (h : exec i s = .next t) : exec i (c s) = .next (c t) := by
  have hsame : graft (c s) s = c s := by rw [hc.graft, hc.self]
  rcases unitAnswer_both hanswer (hc.self s) (hc.cfg s) hsame h with ⟨e, rfl, hs'⟩ | ⟨d, u, rfl, hs'⟩
  · rw [hs', hc.raised]
  · rw [hs', hc.graft, hc.responded]

/-- `s` with another value of FL_BPP. -/
def changeFlBpp (b : BitVec 4) (s : State) : State := { s with flBpp := b }

/-- `s` with another content of PK_BUF. -/
def changePkBuf (m : Memory) (s : State) : State := { s with pkBuf := m }

theorem changeFlBpp_outsideCrc (b : BitVec 4) : OutsideUnit withCrcOf (changeFlBpp b) :=
  ⟨fun _ => rfl, fun _ => rfl, fun _ _ => rfl, fun _ _ => rfl, fun _ _ => rfl⟩

theorem changeFlBpp_outsidePacker (b : BitVec 4) : OutsideUnit withPackerOf (changeFlBpp b) :=
  ⟨fun _ => rfl, fun _ => rfl, fun _ _ => rfl, fun _ _ => rfl, fun _ _ => rfl⟩

theorem changePkBuf_outsideCrc (m : Memory) : OutsideUnit withCrcOf (changePkBuf m) :=
  ⟨fun _ => rfl, fun _ => rfl, fun _ _ => rfl, fun _ _ => rfl, fun _ _ => rfl⟩

theorem changePkBuf_outsideFilter (m : Memory) : OutsideUnit withFilterOf (changePkBuf m) :=
  ⟨fun _ => rfl, fun _ => rfl, fun _ _ => rfl, fun _ _ => rfl, fun _ _ => rfl⟩

/-! ### FL_BPP before FL_CFG -/

section
variable {s t : State} (b : BitVec 4)

/-- A command that raises the same error whatever FL_BPP is. -/
theorem exec_changeFlBpp_of_raised {i : Instr} {e : Status} (h : exec i s = .next t)
    (hraises : ∀ u : State, u.flLen = s.flLen → exec i u = .next (u.raised e)) :
    exec i (changeFlBpp b s) = .next (changeFlBpp b t) := by
  obtain rfl : s.raised e = t := Host.Outcome.next.inj ((hraises s rfl).symm.trans h)
  exact hraises (changeFlBpp b s) rfl

/-- R79: FL_WR reads no configuration register. -/
theorem exec_flWr_changeFlBpp {sel : RowSel} {idx : BitVec 16} {byte : Byte}
    (h : exec (.flWr sel idx byte) s = .next t) :
    exec (.flWr sel idx byte) (changeFlBpp b s) = .next (changeFlBpp b t) := by
  by_cases hidx : idx.toNat < s.cfg.rowMax
  · cases sel with
    | cur =>
      obtain rfl := Host.Outcome.next.inj ((exec_flWr_cur_of_inRange hidx byte).symm.trans h)
      exact exec_flWr_cur_of_inRange (s := changeFlBpp b s) hidx byte
    | prev =>
      obtain rfl := Host.Outcome.next.inj ((exec_flWr_prev_of_inRange hidx byte).symm.trans h)
      exact exec_flWr_prev_of_inRange (s := changeFlBpp b s) hidx byte
  · have hout := Nat.le_of_not_lt hidx
    obtain rfl := Host.Outcome.next.inj ((exec_flWr_of_outOfRange hout sel byte).symm.trans h)
    exact exec_flWr_of_outOfRange (s := changeFlBpp b s) hout sel byte

/-- With FL_LEN unwritten a command other than FL_CFG passes another value of FL_BPP on and does the same. -/
theorem exec_changeFlBpp {i : Instr} (hi : i.op ∉ [Op.flCfg]) (hlen : s.flLen = none) (h : exec i s = .next t) :
    exec i (changeFlBpp b s) = .next (changeFlBpp b t) := by
  cases i with
  | nop => obtain rfl := Host.Outcome.next.inj h; rfl
  | stRd => obtain rfl := Host.Outcome.next.inj h; rfl
  | crcInit | crcByte | crcFinal | crcTbl =>
    exact exec_outsideUnit (changeFlBpp_outsideCrc b) (crc_unitAnswer (by simp [Instr.op]) s) h
  | pkInit | pkPut | pkRdb =>
    exact exec_outsideUnit (changeFlBpp_outsidePacker b) (packer_unitAnswer (by simp [Instr.op]) s) h
  | flCfg => simp [Instr.op] at hi
  | flWr => exact exec_flWr_changeFlBpp b h
  | flFwd kind =>
    exact exec_changeFlBpp_of_raised b h fun u hu => fixedFilter_of_unconfigured filt (hu.trans hlen) kind
  | flSel gray depth =>
    exact exec_changeFlBpp_of_raised b h fun u hu => exec_flSel_of_unconfigured (hu.trans hlen) gray depth
  | flInv kind =>
    exact exec_changeFlBpp_of_raised b h fun u hu => fixedFilter_of_unconfigured unfilt (hu.trans hlen) kind
  | flRdo idx => exact exec_changeFlBpp_of_raised b h fun u hu => exec_flRdo_of_unconfigured (hu.trans hlen) idx
  | flRdt => exact exec_changeFlBpp_of_raised b h fun u hu => exec_flRdt_of_unconfigured (hu.trans hlen)
  | flShift src => exact exec_changeFlBpp_of_raised b h fun u hu => exec_flShift_of_unconfigured (hu.trans hlen) src

/-- R78: FL_CFG overwrites FL_BPP, or raises an error and leaves it. -/
theorem exec_flCfg_changeFlBpp {len : BitVec 16} {bpp : BitVec 4} {pv : Bool} (hlen : s.flLen = none)
    (h : exec (.flCfg len bpp pv) s = .next t) :
    ∃ b', exec (.flCfg len bpp pv) (changeFlBpp b s) = .next (changeFlBpp b' t) ∧ (t.flLen ≠ none → b' = t.flBpp) := by
  by_cases hlegal : len.toNat < 1 ∨ len.toNat > s.cfg.rowMax
  · obtain rfl := Host.Outcome.next.inj ((exec_flCfg_of_illegalLength hlegal bpp pv).symm.trans h)
    exact ⟨b, exec_flCfg_of_illegalLength (s := changeFlBpp b s) hlegal bpp pv, fun hne => absurd hlen hne⟩
  by_cases hbpp : bpp.toNat < 1 ∨ bpp.toNat > 8
  · obtain rfl := Host.Outcome.next.inj ((exec_flCfg_of_illegalBpp hbpp len pv).symm.trans h)
    exact ⟨b, exec_flCfg_of_illegalBpp (s := changeFlBpp b s) hbpp len pv, fun hne => absurd hlen hne⟩
  · obtain rfl := Host.Outcome.next.inj ((exec_flCfg_of_legal hlegal hbpp pv).symm.trans h)
    exact ⟨bpp, exec_flCfg_of_legal (s := changeFlBpp b s) hlegal hbpp pv, fun _ => rfl⟩

end

/-- Settles O53: FL_CFG is the one command that makes FL_LEN written, and it overwrites FL_BPP. -/
theorem flBppNotReadBeforeFlCfg : Obligations.FlBppNotReadBeforeFlCfg := by
  intro i s t b hlen h
  by_cases hi : i.op ∈ [Op.flCfg]
  · cases i with
    | flCfg len bpp pv => exact exec_flCfg_changeFlBpp b hlen h
    | _ => simp [Instr.op] at hi
  · obtain ⟨-, -, -, hwritten, -⟩ := elementsWrittenByTheirCommands i s t h
    have hlen' : t.flLen = none := by
      by_contra hne
      exact hi (hwritten (hlen ▸ hne))
    exact ⟨b, exec_changeFlBpp b hi hlen h, fun hne => absurd hlen' hne⟩

/-! ### PK_BUF past the capacity -/

/-- The bytes that a PK_INIT has made accessible are the same in both buffers (R22). -/
def AccessibleAgree (cap : Option (BitVec 32)) (m m' : Memory) : Prop :=
  ∀ c, cap = some c → ∀ j, j < ceil8 c.toNat → pkRead m j = pkRead m' j

section
variable {s t : State} {m : Memory}

/-- A command of another unit passes the other buffer on. -/
theorem exec_changePkBuf {i : Instr} (hi : i.op ∉ [Op.pkInit, .pkPut, .pkRdb]) (h : exec i s = .next t) :
    exec i (changePkBuf m s) = .next (changePkBuf m t) := by
  cases i with
  | nop => obtain rfl := Host.Outcome.next.inj h; rfl
  | stRd => obtain rfl := Host.Outcome.next.inj h; rfl
  | crcInit | crcByte | crcFinal | crcTbl =>
    exact exec_outsideUnit (changePkBuf_outsideCrc m) (crc_unitAnswer (by simp [Instr.op]) s) h
  | pkInit | pkPut | pkRdb => simp [Instr.op] at hi
  | flCfg | flWr | flFwd | flSel | flInv | flRdo | flRdt | flShift =>
    exact exec_outsideUnit (changePkBuf_outsideFilter m) (filter_unitAnswer s (by simp [Instr.op])) h

/-- R66: PK_INIT zeroes what becomes accessible. -/
theorem exec_pkInit_changePkBuf {cap : BitVec 32} (hagree : AccessibleAgree s.pkCap s.pkBuf m)
    (h : exec (.pkInit cap) s = .next t) :
    ∃ m', exec (.pkInit cap) (changePkBuf m s) = .next (changePkBuf m' t) ∧ AccessibleAgree t.pkCap t.pkBuf m' := by
  by_cases hcap : ceil8 cap.toNat > s.cfg.pkMaxBytes
  · obtain rfl := Host.Outcome.next.inj ((exec_pkInit_of_tooLarge hcap).symm.trans h)
    exact ⟨m, exec_pkInit_of_tooLarge (s := changePkBuf m s) hcap, hagree⟩
  · obtain rfl := Host.Outcome.next.inj ((exec_pkInit_of_fits hcap).symm.trans h)
    refine ⟨m.clearBelow (ceil8 cap.toNat), exec_pkInit_of_fits (s := changePkBuf m s) hcap, ?_⟩
    rintro _ ⟨⟩ j hj
    exact (pkRead_clearBelow_inside s.pkBuf hj).trans (pkRead_clearBelow_inside m hj).symm

/-- Bytes that agree still agree after the same sample. -/
theorem pkRead_put_congr {m m' : Memory} {j : Nat} (h : pkRead m j = pkRead m' j) (off : Nat) (val : BitVec 16)
    (n : Nat) : pkRead (put m off val n) j = pkRead (put m' off val n) j := by
  refine pkRead_eq_of_bits _ _ j fun k hk => ?_
  have hbit : pkReadBit m k = pkReadBit m' k := by rw [pkReadBit, pkReadBit, hk, h]
  rw [pkReadBit_put, pkReadBit_put, hbit]

/-- R67: PK_PUT answers by the capacity alone, and ORs into both buffers alike. -/
theorem exec_pkPut_changePkBuf {off : BitVec 32} {val : BitVec 16} {n : BitVec 5}
    (hagree : AccessibleAgree s.pkCap s.pkBuf m) (h : exec (.pkPut off val n) s = .next t) :
    ∃ m', exec (.pkPut off val n) (changePkBuf m s) = .next (changePkBuf m' t)
      ∧ AccessibleAgree t.pkCap t.pkBuf m' := by
  cases hcap : s.pkCap with
  | none =>
    obtain rfl := Host.Outcome.next.inj ((exec_pkPut_of_unwritten hcap off val n).symm.trans h)
    exact ⟨m, exec_pkPut_of_unwritten (s := changePkBuf m s) hcap off val n, hagree⟩
  | some cap =>
    by_cases hn : n.toNat < 1 ∨ n.toNat > 16
    · obtain rfl := Host.Outcome.next.inj ((exec_pkPut_of_illegalWidth hcap hn off val).symm.trans h)
      exact ⟨m, exec_pkPut_of_illegalWidth (s := changePkBuf m s) hcap hn off val, hagree⟩
    by_cases hc : off.toNat + n.toNat > cap.toNat
    · obtain rfl := Host.Outcome.next.inj ((exec_pkPut_of_pastCapacity hcap hn hc val).symm.trans h)
      exact ⟨m, exec_pkPut_of_pastCapacity (s := changePkBuf m s) hcap hn hc val, hagree⟩
    · obtain rfl := Host.Outcome.next.inj ((exec_pkPut_of_fits hcap hn hc val).symm.trans h)
      exact ⟨put m off.toNat val n.toNat, exec_pkPut_of_fits (s := changePkBuf m s) hcap hn hc val,
        fun c hc' j hj => pkRead_put_congr (hagree c hc' j hj) off.toNat val n.toNat⟩

/-- R68: PK_RDB reads an accessible byte. -/
theorem exec_pkRdb_changePkBuf {idx : BitVec 32} (hagree : AccessibleAgree s.pkCap s.pkBuf m)
    (h : exec (.pkRdb idx) s = .next t) :
    ∃ m', exec (.pkRdb idx) (changePkBuf m s) = .next (changePkBuf m' t) ∧ AccessibleAgree t.pkCap t.pkBuf m' := by
  cases hcap : s.pkCap with
  | none =>
    obtain rfl := Host.Outcome.next.inj ((exec_pkRdb_of_unwritten hcap idx).symm.trans h)
    exact ⟨m, exec_pkRdb_of_unwritten (s := changePkBuf m s) hcap idx, hagree⟩
  | some cap =>
    by_cases hidx : idx.toNat < ceil8 cap.toNat
    · obtain rfl := Host.Outcome.next.inj ((exec_pkRdb_of_inRange hcap hidx).symm.trans h)
      refine ⟨m, ?_, hagree⟩
      rw [State.pkByte, hagree cap hcap idx.toNat hidx]
      exact exec_pkRdb_of_inRange (s := changePkBuf m s) hcap hidx
    · have hout := Nat.le_of_not_lt hidx
      obtain rfl := Host.Outcome.next.inj ((exec_pkRdb_of_outOfRange hcap hout).symm.trans h)
      exact ⟨m, exec_pkRdb_of_outOfRange (s := changePkBuf m s) hcap hout, hagree⟩

end

/-- Settles O54: the three commands of the packer one by one; every other command passes the buffer on and leaves the
capacity. -/
theorem pkBytesPastCapacityNotRead : Obligations.PkBytesPastCapacityNotRead := by
  intro i s t m hagree h
  by_cases hi : i.op ∈ [Op.pkInit, .pkPut, .pkRdb]
  · cases i with
    | pkInit cap => exact exec_pkInit_changePkBuf hagree h
    | pkPut off val n => exact exec_pkPut_changePkBuf hagree h
    | pkRdb idx => exact exec_pkRdb_changePkBuf hagree h
    | _ => simp [Instr.op] at hi
  · obtain ⟨-, hcap, hbuf, -⟩ := elementsWrittenByTheirCommands i s t h
    have hcap' : t.pkCap = s.pkCap := by
      by_contra hne
      exact hi (List.mem_append_left [Op.pkPut, .pkRdb] (hcap hne))
    have hbuf' : t.pkBuf = s.pkBuf := by
      by_contra hne
      exact hi (List.mem_append_left [Op.pkRdb] (hbuf hne))
    refine ⟨m, exec_changePkBuf hi h, fun cap hc j hj => ?_⟩
    rw [State.pkByte, hbuf']
    exact hagree cap (hcap'.symm.trans hc) j hj

end Sys2Proof.Proofs
end

section
/-! Repeated commands (20_memory.md R34): a read that succeeds, and a command whose second issue changes nothing. -/

namespace Sys2Proof.Proofs

open Sys2Proof.Machine

/-! ### Reads -/

/-- No command reads the last response (log 5). -/
theorem exec_withRsp (i : Instr) (s : State) (st : Status) (d : Word) : exec i (s.withRsp st d) = exec i s := by
  cases i <;> rfl

/-- The commands R34 names as reads. -/
def readOps : List Op := [.nop, .stRd, .crcFinal, .crcTbl, .pkRdb, .flRdo, .flRdt]

theorem not_readOps_of_writesAcc : ∀ o ∈ [Op.crcInit, .crcByte], o ∉ readOps := by decide

theorem not_readOps_of_storesRow : ∀ o ∈ [Op.flFwd, .flInv, .flSel], o ∉ readOps := by decide

/-- A read's effect is an error or a response. -/
theorem effect_of_read {i : Instr} {s t : State} (hi : i.op ∈ readOps) (h : Effect s i t) :
    (∃ e : Status, (1 ≤ e.code.toNat ∧ e.code.toNat ≤ 9) ∧ t = s.raised e) ∨ ∃ d, t = s.responded d := by
  cases h with
  | raises he => exact .inl ⟨_, he, rfl⟩
  | reads d => exact .inr ⟨d, rfl⟩
  | writesAcc hi' v => exact absurd hi (not_readOps_of_writesAcc _ hi')
  | storesRow hi' _ _ k => exact absurd hi (not_readOps_of_storesRow _ hi')
  | _ => simp [Instr.op, readOps] at hi

/-- Settles O51: the state after the read differs from the one before in the response alone, which no command reads. -/
theorem readsHaveNoSideEffects : Obligations.ReadsHaveNoSideEffects := by
  intro i s t d hi h hok
  rcases effect_of_read hi (effect_of_exec h) with ⟨e, he, rfl⟩ | ⟨d', rfl⟩
  · obtain rfl : e = .ok := eq_ok_of_raised h h hok
    exact absurd he (by decide)
  · exact ⟨rfl, (exec_withRsp i s .ok d').trans h⟩

/-! ### Writes of the same cells -/

/-- A write and the same write again. -/
theorem write_write {u : Option Byte} {m : Memory} (hwf : m.wf u = true) (a : Nat) (v : Byte) :
    (m.write u a v).write u a v = m.write u a v := by
  have hwf' := Memory.write_wf u m a v hwf
  refine Memory.eq_of_read_eq u _ _ (Memory.write_wf u _ a v hwf') hwf' fun i => ?_
  rw [Memory.read_write, Memory.read_write]
  split <;> rfl

/-- A row and the same row again. -/
theorem writeFrom_writeFrom {u : Option Byte} {m : Memory} (hwf : m.wf u = true) (a : Nat) (row : List Byte) :
    (m.writeFrom u a row).writeFrom u a row = m.writeFrom u a row := by
  have hwf' := Memory.writeFrom_wf u row m a hwf
  refine Memory.eq_of_read_eq u _ _ (Memory.writeFrom_wf u row _ a hwf') hwf' fun i => ?_
  rw [Memory.read_writeFrom, Memory.read_writeFrom]
  split <;> rfl

theorem clearBelow_clearBelow (m : Memory) (n : Nat) : (m.clearBelow n).clearBelow n = m.clearBelow n := by
  simp [Memory.clearBelow]

/-! ### Idempotent commands -/

/-- The command `f` issued twice ends in the state of the first. -/
def Repeats (f : State → Result) (s : State) : Prop := ∀ t, f s = .next t → f t = .next t

/-- A command repeats when its answer answers itself. -/
theorem repeats_of {f : State → Result} {s t : State} (h : f s = .next t) (h' : f t = .next t) : Repeats f s := by
  intro t' ht'
  obtain rfl : t = t' := Host.Outcome.next.inj (h.symm.trans ht')
  exact h'

/-- The same, where the second issue writes a buffer `m'` that equals the first one's. -/
theorem repeats_of_sameBuffer {f : State → Result} {s : State} (g : Memory → State) {m m' : Memory} (hm : m' = m)
    (h : f s = .next (g m)) (h' : f (g m) = .next (g m')) : Repeats f s :=
  repeats_of h (hm ▸ h')

section
variable (s : State)

theorem exec_pkInit_repeats (cap : BitVec 32) : Repeats (exec (.pkInit cap)) s := by
  by_cases h : ceil8 cap.toNat > s.cfg.pkMaxBytes
  · exact repeats_of (exec_pkInit_of_tooLarge h) (exec_pkInit_of_tooLarge (s := s.raised .capacity) h)
  · exact repeats_of_sameBuffer (fun m => ((s.withPkBuf m).withPkCap cap).responded _)
      (clearBelow_clearBelow s.pkBuf (ceil8 cap.toNat)) (exec_pkInit_of_fits h) (exec_pkInit_of_fits h)

theorem exec_flWr_repeats (hcur : s.cur.wf rowUnlisted = true) (hprev : s.prev.wf rowUnlisted = true) (sel : RowSel)
    (idx : BitVec 16) (byte : Byte) : Repeats (exec (.flWr sel idx byte)) s := by
  by_cases h : idx.toNat < s.cfg.rowMax
  · cases sel with
    | cur =>
      exact repeats_of_sameBuffer (fun m => (s.withCur m).responded 0) (write_write hcur idx.toNat byte)
        (exec_flWr_cur_of_inRange h byte)
        (exec_flWr_cur_of_inRange (s := (s.withCur (s.cur.write rowUnlisted idx.toNat byte)).responded 0) h byte)
    | prev =>
      exact repeats_of_sameBuffer (fun m => (s.withPrev m).responded 0) (write_write hprev idx.toNat byte)
        (exec_flWr_prev_of_inRange h byte)
        (exec_flWr_prev_of_inRange (s := (s.withPrev (s.prev.write rowUnlisted idx.toNat byte)).responded 0) h byte)
  · have hout := Nat.le_of_not_lt h
    exact repeats_of (exec_flWr_of_outOfRange hout sel byte)
      (exec_flWr_of_outOfRange (s := s.raised .range) hout sel byte)

theorem exec_flCfg_repeats (len : BitVec 16) (bpp : BitVec 4) (pv : Bool) : Repeats (exec (.flCfg len bpp pv)) s := by
  by_cases hlen : len.toNat < 1 ∨ len.toNat > s.cfg.rowMax
  · exact repeats_of (exec_flCfg_of_illegalLength hlen bpp pv)
      (exec_flCfg_of_illegalLength (s := s.raised .operand) hlen bpp pv)
  by_cases hbpp : bpp.toNat < 1 ∨ bpp.toNat > 8
  · exact repeats_of (exec_flCfg_of_illegalBpp hbpp len pv) (exec_flCfg_of_illegalBpp hbpp len pv)
  · exact repeats_of (exec_flCfg_of_legal hlen hbpp pv)
      (exec_flCfg_of_legal (s := ((s.withFlCfg len bpp pv).withOut [] none).responded 0) hlen hbpp pv)

/-- A command that stores a row, and stores the same row again from a state with another OUT and TAG. -/
theorem repeats_of_storeRow {f : State → Result} (hwf : s.out.wf rowUnlisted = true) (k : FilterKind) (row : List Byte)
    (h : ∀ m tag, f ((s.withOut m tag).responded k.word) = storeRow k row ((s.withOut m tag).responded k.word))
    (hs : f s = storeRow k row s) : Repeats f s :=
  repeats_of_sameBuffer (fun m => (s.withOut m (some k)).responded k.word) (writeFrom_writeFrom hwf 0 row) hs (h _ _)

/-- FL_FWD and FL_INV. -/
theorem fixedFilter_repeats (hwf : s.out.wf rowUnlisted = true)
    (f : FilterKind → List Byte → Option (List Byte) → Nat → List Byte) (kind : BitVec 3) :
    Repeats (fixedFilter f kind) s := by
  rcases fixedFilter_cases f kind s with
    ⟨h, hs⟩ | ⟨len, h, ⟨hk, hs⟩ | ⟨k, hk, ⟨ho, hs⟩ | ⟨x, p, ho, hs⟩⟩⟩
  · exact repeats_of hs (fixedFilter_of_unconfigured f (s := s.raised .notInit) h kind)
  · exact repeats_of hs (fixedFilter_of_noKind f (s := s.raised .filterType) h hk)
  · exact repeats_of hs (fixedFilter_of_noOperands f (s := s.raised .unwritten) h hk ho)
  · exact repeats_of_storeRow s hwf k (f k x p s.flBpp.toNat)
      (fun m tag => fixedFilter_of_operands f (s := (s.withOut m tag).responded k.word) h hk ho) hs

theorem exec_flSel_repeats (hwf : s.out.wf rowUnlisted = true) (gray : Bool) (depth : BitVec 5) :
    Repeats (exec (.flSel gray depth)) s := by
  cases h : s.flLen with
  | none =>
    exact repeats_of (exec_flSel_of_unconfigured h gray depth)
      (exec_flSel_of_unconfigured (s := s.raised .notInit) h gray depth)
  | some len =>
    by_cases hd : legalDepth depth = true
    · cases ho : rowOperands len.toNat s with
      | none =>
        exact repeats_of (exec_flSel_of_noOperands h hd ho gray)
          (exec_flSel_of_noOperands (s := s.raised .unwritten) h hd ho gray)
      | some operands =>
        obtain ⟨x, p⟩ := operands
        exact repeats_of_storeRow s hwf _ _ (fun m tag => exec_flSel_of_operands
          (s := (s.withOut m tag).responded (select x p s.flBpp.toNat gray depth.toNat).word) h hd ho gray)
          (exec_flSel_of_operands h hd ho gray)
    · exact repeats_of (exec_flSel_of_illegalDepth h hd gray)
        (exec_flSel_of_illegalDepth (s := s.raised .bitDepth) h hd gray)

/-- The state after an FL_SHIFT that leaves `m` in PREV (R85). -/
def shifted (m : Memory) : State := ((s.withPrev m).withFlPv true).responded 0

theorem shifted_shifted (m m' : Memory) : shifted (shifted s m) m' = shifted s m' := rfl

/-- FL_SHIFT reads CUR or OUT and writes PREV, so it reads the same row again. -/
theorem exec_flShift_repeats (hwf : s.prev.wf rowUnlisted = true) (src : ShiftSrc) :
    Repeats (exec (.flShift src)) s := by
  have hsource : ∀ m, shiftSource src (shifted s m) = shiftSource src s := by
    cases src <;> exact fun _ => rfl
  cases h : s.flLen with
  | none =>
    exact repeats_of (exec_flShift_of_unconfigured h src) (exec_flShift_of_unconfigured (s := s.raised .notInit) h src)
  | some len =>
    cases hrow : (shiftSource src s).readFrom rowUnlisted 0 len.toNat with
    | none =>
      have hraised : shiftSource src (s.raised .unwritten) = shiftSource src s := by cases src <;> rfl
      exact repeats_of (exec_flShift_of_noRow h hrow) (exec_flShift_of_noRow (s := s.raised .unwritten) h
        (by rwa [hraised]))
    | some row =>
      have hrow' := (congrArg (fun m : Memory => m.readFrom rowUnlisted 0 len.toNat)
        (hsource (s.prev.writeFrom rowUnlisted 0 row))).trans hrow
      exact repeats_of_sameBuffer (shifted s) (writeFrom_writeFrom hwf 0 row)
        (exec_flShift_of_row h hrow)
        ((exec_flShift_of_row (s := shifted s (s.prev.writeFrom rowUnlisted 0 row)) h hrow').trans
          (congrArg Host.Outcome.next (shifted_shifted s _ _)))

end

/-- Settles O52, command by command. -/
theorem repeatedCommandsAreIdempotent : Obligations.RepeatedCommandsAreIdempotent := by
  rintro i s t hi ⟨-, hcur, hprev, hout⟩
  suffices Repeats (exec i) s from this t
  cases i with
  | crcInit => exact repeats_of (exec_crcInit s) (exec_crcInit ((s.withCrcAcc 0xFFFFFFFF).responded 0))
  | pkInit cap => exact exec_pkInit_repeats s cap
  | flWr sel idx byte => exact exec_flWr_repeats s hcur hprev sel idx byte
  | flCfg len bpp pv => exact exec_flCfg_repeats s len bpp pv
  | flFwd kind => exact fixedFilter_repeats s hout filt kind
  | flInv kind => exact fixedFilter_repeats s hout unfilt kind
  | flSel gray depth => exact exec_flSel_repeats s hout gray depth
  | flShift src => exact exec_flShift_repeats s hprev src
  | _ => simp [Instr.op] at hi

end Sys2Proof.Proofs
end

section
/-! The assembler (30_encoding.md R54): when the operands of a line have values, and the word of the command built from
them. -/

namespace Sys2Proof.Proofs

/-! ### The value of an operand -/

/-- The model's symbol table is that of R54. -/
theorem symbol_eq_some_iff (f : Field) (s : Symbol) (v : Nat) : f.symbol s = some v ↔ (s, v) ∈ r54Symbols f := by
  cases f with
  | sel | src | kind | pv => cases s <;> simp [Field.symbol, r54Symbols, eq_comm]
  | _ => simp [Field.symbol, r54Symbols]

/-- An operand has the value it stands for, in a field as wide as its place. -/
theorem value_eq_some_iff {f : Field} {place : Nat × Nat} (hwidth : place.1 + 1 - place.2 = f.width) (x : AsmOperand)
    (v : Nat) : x.value f = some v ↔ x.standsFor f place v := by
  cases x with
  | num n =>
    simp only [AsmOperand.value_num, AsmOperand.standsFor, hwidth, Option.ite_none_right_eq_some, Option.some.injEq]
    rw [and_comm, eq_comm]
  | sym s => exact symbol_eq_some_iff f s v

/-- The symbols' numbers fit their fields. -/
theorem r54Symbols_lt (f : Field) : ∀ e ∈ r54Symbols f, e.2 < 2 ^ f.width := by
  cases f <;> decide

theorem value_lt {f : Field} {x : AsmOperand} {v : Nat} (h : x.value f = some v) : v < 2 ^ f.width := by
  cases x with
  | num n =>
    obtain ⟨hn, hv⟩ := Option.ite_none_right_eq_some.mp h
    exact Option.some.inj hv ▸ hn
  | sym s => exact r54Symbols_lt f (s, v) ((symbol_eq_some_iff f s v).mp h)

/-! ### The operands of a line -/

/-- The fields of R47 stand at the places of R46, in the same order and number. -/
theorem length_r46Fields (o : Op) : (r46Fields o.format).length = o.fields.length := by
  cases o <;> rfl

theorem width_zip_r46Fields (o : Op) :
    ∀ e ∈ o.fields.zip (r46Fields o.format), e.2.1 + 1 - e.2.2 = e.1.width := by
  cases o <;> decide

theorem width_of_place {o : Op} {k : Nat} {f : Field} {place : Nat × Nat} (hf : o.fields[k]? = some f)
    (hplace : (r46Fields o.format)[k]? = some place) : place.1 + 1 - place.2 = f.width :=
  width_zip_r46Fields o (f, place) (List.mem_of_getElem? (List.getElem?_zip_eq_some.mpr ⟨hf, hplace⟩))

theorem operandValues_eq_zipWith (fs : List Field) (os : List AsmOperand) :
    operandValues fs os = fs.zipWith (fun f x => (x.value f).getD 0) os := by
  induction fs generalizing os with
  | nil => rfl
  | cons f fs ih =>
    cases os with
    | nil => rfl
    | cons x os => rw [operandValues, ih, List.zipWith_cons_cons]

/-- The value at a place of the line. -/
theorem getElem?_operandValues {fs : List Field} {os : List AsmOperand} {k : Nat} {f : Field} {x : AsmOperand}
    (hf : fs[k]? = some f) (hx : os[k]? = some x) : (operandValues fs os)[k]? = some ((x.value f).getD 0) := by
  rw [operandValues_eq_zipWith, List.getElem?_zipWith, hf, hx]

/-- The operands stand for values exactly when they fit, and the values are those the assembler takes. -/
theorem operandsStandFor_iff (o : Op) (os : List AsmOperand) (vs : List Nat) :
    o.operandsStandFor os vs ↔ operandsFit o.fields os = true ∧ vs = operandValues o.fields os := by
  rw [operandsFit_iff, Op.operandsStandFor, length_r46Fields]
  constructor
  · rintro ⟨hos, hvs, h⟩
    have hvalue : ∀ (k : Nat) f (x : AsmOperand) v, o.fields[k]? = some f → os[k]? = some x → vs[k]? = some v →
        x.value f = some v := by
      intro k f x v hf hx hv
      obtain ⟨hk, -⟩ := List.getElem?_eq_some_iff.mp hf
      have hplace := List.getElem?_eq_getElem (length_r46Fields o ▸ hk)
      exact (value_eq_some_iff (width_of_place hf hplace) x v).mpr (h k f _ x v hf hplace hx hv)
    refine ⟨⟨hos, fun k f x hf hx => ?_⟩, ?_⟩
    · obtain ⟨hk, -⟩ := List.getElem?_eq_some_iff.mp hf
      rw [hvalue k f x _ hf hx (List.getElem?_eq_getElem (hvs ▸ hk))]
      rfl
    · have hlength : vs.length = (operandValues o.fields os).length := by
        rw [operandValues_eq_zipWith, List.length_zipWith, hos, hvs, Nat.min_self]
      refine List.ext_getElem hlength fun k hk hk' => ?_
      have hf := List.getElem?_eq_getElem (hvs ▸ hk : k < o.fields.length)
      have hx := List.getElem?_eq_getElem (hos ▸ hvs ▸ hk : k < os.length)
      have hv := List.getElem?_eq_getElem hk
      refine Option.some.inj ?_
      rw [← hv, ← List.getElem?_eq_getElem hk', getElem?_operandValues hf hx, hvalue k _ _ _ hf hx hv, hv]
      rfl
  · rintro ⟨⟨hos, h⟩, rfl⟩
    refine ⟨hos, ?_, fun k f place x v hf hplace hx hv => ?_⟩
    · rw [operandValues_eq_zipWith, List.length_zipWith, hos, Nat.min_self]
    · obtain ⟨v', hv'⟩ := Option.isSome_iff_exists.mp (h k f x hf hx)
      rw [getElem?_operandValues hf hx, hv'] at hv
      obtain rfl : v' = v := Option.some.inj hv
      exact (value_eq_some_iff (width_of_place hf hplace) x v').mp hv'

/-- Operands that fit have values that fit. -/
theorem operandValues_fit {fs : List Field} {os : List AsmOperand} (h : operandsFit fs os = true) :
    List.Forall₂ (fun f v => v < 2 ^ f.width) fs (operandValues fs os) := by
  induction fs generalizing os with
  | nil => exact .nil
  | cons f fs ih =>
    cases os with
    | nil => simp [operandsFit] at h
    | cons x os =>
      obtain ⟨hx, hos⟩ := Bool.and_eq_true_iff.mp h
      obtain ⟨v, hv⟩ := Option.isSome_iff_exists.mp hx
      refine .cons ?_ (ih hos)
      rw [hv]
      exact value_lt hv

/-! ### The word of the command built -/

/-- A word's opcode and the values at the places of its fields (R46). -/
def placedWord (o : Op) (vs : List Nat) : Nat :=
  o.opc.toNat * 2 ^ 56 + ((r46Fields o.format).zipWith (fun place v => v * 2 ^ place.2) vs).sum

theorem toNat_ofNat_of_lt {n v : Nat} (h : v < 2 ^ n) : (BitVec.ofNat n v).toNat = v := by
  rw [BitVec.toNat_ofNat, Nat.mod_eq_of_lt h]

section
variable {v : Nat} (h : v < 2 ^ 1)
include h

/-- A value of one bit is that bit's number. -/
theorem toNat_beq_one : (v == 1).toNat = v := by
  obtain rfl | rfl : v = 0 ∨ v = 1 := by omega
  · rfl
  · rfl

theorem selOfBit_number : (if RowSel.ofBit (v == 1) = .prev then 1 else 0) = v := by
  obtain rfl | rfl : v = 0 ∨ v = 1 := by omega
  · rfl
  · rfl

theorem srcOfBit_number : (if ShiftSrc.ofBit (v == 1) = .out then 1 else 0) = v := by
  obtain rfl | rfl : v = 0 ∨ v = 1 := by omega
  · rfl
  · rfl

end

/-- Formats B, W, K and I: one operand at bit 0. -/
theorem toNat_oneOperand {n z v : Nat} (opc : BitVec 8) (h : v < 2 ^ n) (hz : z + n = 56) :
    (opc ++ 0#z ++ BitVec.ofNat n v).toNat = opc.toNat * 2 ^ 56 + (v * 2 ^ 0 + 0) := by
  rw [toNat_append_zero_append, hz, toNat_ofNat_of_lt h, pow_zero, Nat.mul_one, Nat.add_zero]

/-- The word of the command built from values that fit: each value, taken as a field of its width, is itself, and the
field counts at its place (R46). -/
theorem toNat_encode_buildInstr {o : Op} {vs : List Nat} (h : List.Forall₂ (fun f v => v < 2 ^ f.width) o.fields vs) :
    (encode (buildInstr o vs)).toNat = placedWord o vs := by
  cases o <;> simp only [Op.fields, Field.width, List.forall₂_cons_left_iff, List.forall₂_nil_left_iff] at h
  case nop | stRd | crcInit | crcFinal | flRdt => subst h; rfl
  case crcByte => obtain ⟨v, _, hv, rfl, rfl⟩ := h; exact toNat_oneOperand (z := 48) Op.crcByte.opc hv rfl
  case crcTbl => obtain ⟨v, _, hv, rfl, rfl⟩ := h; exact toNat_oneOperand (z := 48) Op.crcTbl.opc hv rfl
  case pkInit => obtain ⟨v, _, hv, rfl, rfl⟩ := h; exact toNat_oneOperand (z := 24) Op.pkInit.opc hv rfl
  case pkRdb => obtain ⟨v, _, hv, rfl, rfl⟩ := h; exact toNat_oneOperand (z := 24) Op.pkRdb.opc hv rfl
  case flFwd => obtain ⟨v, _, hv, rfl, rfl⟩ := h; exact toNat_oneOperand (z := 53) Op.flFwd.opc hv rfl
  case flInv => obtain ⟨v, _, hv, rfl, rfl⟩ := h; exact toNat_oneOperand (z := 53) Op.flInv.opc hv rfl
  case flRdo => obtain ⟨v, _, hv, rfl, rfl⟩ := h; exact toNat_oneOperand (z := 40) Op.flRdo.opc hv rfl
  case pkPut =>
    obtain ⟨off, _, hoff, ⟨val, _, hval, ⟨n, _, hn, rfl, rfl⟩, rfl⟩, rfl⟩ := h
    show (encode (.pkPut (BitVec.ofNat 32 off) (BitVec.ofNat 16 val) (BitVec.ofNat 5 n))).toNat
      = 0x21 * 2 ^ 56 + (off * 2 ^ 24 + (val * 2 ^ 8 + (n * 2 ^ 0 + 0)))
    rw [toNat_encode_pkPut, toNat_ofNat_of_lt hoff, toNat_ofNat_of_lt hval, toNat_ofNat_of_lt hn]
    omega
  case flCfg =>
    obtain ⟨len, _, hlen, ⟨bpp, _, hbpp, ⟨pv, _, hpv, rfl, rfl⟩, rfl⟩, rfl⟩ := h
    show (encode (.flCfg (BitVec.ofNat 16 len) (BitVec.ofNat 4 bpp) (pv == 1))).toNat
      = 0x30 * 2 ^ 56 + (len * 2 ^ 8 + (bpp * 2 ^ 4 + (pv * 2 ^ 0 + 0)))
    rw [toNat_encode_flCfg, toNat_ofNat_of_lt hlen, toNat_ofNat_of_lt hbpp, toNat_beq_one hpv]
    omega
  case flWr =>
    obtain ⟨sel, _, hsel, ⟨idx, _, hidx, ⟨byte, _, hbyte, rfl, rfl⟩, rfl⟩, rfl⟩ := h
    show (encode (.flWr (RowSel.ofBit (sel == 1)) (BitVec.ofNat 16 idx) (BitVec.ofNat 8 byte))).toNat
      = 0x31 * 2 ^ 56 + (sel * 2 ^ 24 + (idx * 2 ^ 8 + (byte * 2 ^ 0 + 0)))
    rw [toNat_encode_flWr, selOfBit_number hsel, toNat_ofNat_of_lt hidx, toNat_ofNat_of_lt hbyte]
    omega
  case flSel =>
    obtain ⟨gray, _, hgray, ⟨depth, _, hdepth, rfl, rfl⟩, rfl⟩ := h
    show (encode (.flSel (gray == 1) (BitVec.ofNat 5 depth))).toNat
      = 0x33 * 2 ^ 56 + (gray * 2 ^ 5 + (depth * 2 ^ 0 + 0))
    rw [toNat_encode_flSel, toNat_beq_one hgray, toNat_ofNat_of_lt hdepth]
    omega
  case flShift =>
    obtain ⟨src, _, hsrc, rfl, rfl⟩ := h
    show (encode (.flShift (ShiftSrc.ofBit (src == 1)))).toNat = 0x37 * 2 ^ 56 + (src * 2 ^ 0 + 0)
    rw [toNat_encode_flShift, srcOfBit_number hsrc]
    omega

/-- Settles O57: a line is assembled when its operands fit, which is when they stand for values; the command is built
from those. -/
theorem assemblerRefusesMisfits : Obligations.AssemblerRefusesMisfits := by
  intro o os
  constructor
  · simp only [assemble_eq_some, operandsStandFor_iff, exists_and_left, exists_eq, AsmLine.wellFormed]
  · intro i vs hi hvs
    obtain ⟨-, rfl⟩ := (assemble_eq_some ⟨o, os⟩ i).mp hi
    obtain ⟨hfit, rfl⟩ := (operandsStandFor_iff o os vs).mp hvs
    exact ⟨buildInstr_op o _, toNat_encode_buildInstr (operandValues_fit hfit)⟩

end Sys2Proof.Proofs
end

section
/-! The pseudo-instructions (30_encoding.md R55), line by line. -/

namespace Sys2Proof.Proofs

open Sys2Proof.Machine

/-! ### The lines the expansions are made of -/

/-- A number fits by its size, the rest of the line by itself. -/
theorem operandsFit_num (f : Field) (fs : List Field) (n : Nat) (os : List AsmOperand) :
    operandsFit (f :: fs) (.num n :: os) = true ↔ n < 2 ^ f.width ∧ operandsFit fs os = true := by
  simp only [operandsFit, AsmOperand.value_num, Bool.and_eq_true]
  split <;> simp [*]

theorem operandsFit_nil : operandsFit [] [] = true := rfl

theorem operandValues_num {f : Field} {n : Nat} (h : n < 2 ^ f.width) (fs : List Field) (os : List AsmOperand) :
    operandValues (f :: fs) (.num n :: os) = n :: operandValues fs os := by
  rw [operandValues, AsmOperand.value_num, if_pos h, Option.getD_some]

/-- A line that fits under the condition `P`, and then has the values `vs`. -/
theorem assemble_eq_ite {o : Op} {os : List AsmOperand} {P : Prop} [Decidable P]
    (hfit : operandsFit o.fields os = true ↔ P) {vs : List Nat} (hvalues : P → operandValues o.fields os = vs) :
    assemble ⟨o, os⟩ = if P then some (buildInstr o vs) else none := by
  by_cases h : P
  · rw [assemble, if_pos (show AsmLine.wellFormed ⟨o, os⟩ = true from hfit.mpr h), if_pos h, hvalues h]
  · rw [assemble, if_neg (show ¬AsmLine.wellFormed ⟨o, os⟩ = true from mt hfit.mp h), if_neg h]

theorem assemble_crcByte (b : Nat) :
    assemble ⟨.crcByte, [.num b]⟩ = if b < 2 ^ 8 then some (.crcByte (BitVec.ofNat 8 b)) else none := by
  refine assemble_eq_ite (vs := [b]) ?_ fun hb => operandValues_num (f := .b) hb [] []
  simp only [Op.fields, operandsFit_num, operandsFit_nil, Field.width, and_true]

theorem assemble_flRdo (i : Nat) :
    assemble ⟨.flRdo, [.num i]⟩ = if i < 2 ^ 16 then some (.flRdo (BitVec.ofNat 16 i)) else none := by
  refine assemble_eq_ite (vs := [i]) ?_ fun hi => operandValues_num (f := .idx) hi [] []
  simp only [Op.fields, operandsFit_num, operandsFit_nil, Field.width, and_true]

theorem assemble_pkPut (off v n : Nat) :
    assemble ⟨.pkPut, [.num off, .num v, .num n]⟩ = if off < 2 ^ 32 ∧ v < 2 ^ 16 ∧ n < 2 ^ 5
      then some (.pkPut (BitVec.ofNat 32 off) (BitVec.ofNat 16 v) (BitVec.ofNat 5 n)) else none := by
  refine assemble_eq_ite (vs := [off, v, n]) ?_ fun ⟨hoff, hv, hn⟩ => ?_
  · simp only [Op.fields, operandsFit_num, operandsFit_nil, Field.width, and_true]
  · rw [Op.fields, operandValues_num hoff, operandValues_num hv, operandValues_num hn]
    rfl

/-- A symbol of the field fits, and has its value. -/
theorem operandsFit_sym {f : Field} {s : Symbol} {v : Nat} (h : f.symbol s = some v) (fs : List Field)
    (os : List AsmOperand) : operandsFit (f :: fs) (.sym s :: os) = operandsFit fs os := by
  rw [operandsFit, AsmOperand.value_sym, h, Option.isSome_some, Bool.true_and]

theorem operandValues_sym {f : Field} {s : Symbol} {v : Nat} (h : f.symbol s = some v) (fs : List Field)
    (os : List AsmOperand) : operandValues (f :: fs) (.sym s :: os) = v :: operandValues fs os := by
  rw [operandValues, AsmOperand.value_sym, h, Option.getD_some]

/-- FL_WR with the buffer as a symbol (R48). -/
theorem assemble_flWr (sel : RowSel) (i b : Nat) :
    assemble ⟨.flWr, [.sym (if sel = .prev then .PREV else .CUR), .num i, .num b]⟩
      = if i < 2 ^ 16 ∧ b < 2 ^ 8 then some (.flWr sel (BitVec.ofNat 16 i) (BitVec.ofNat 8 b)) else none := by
  have hsel : Field.sel.symbol (if sel = .prev then .PREV else .CUR) = some sel.bit.toNat := by cases sel <;> rfl
  have hbuild : buildInstr .flWr [sel.bit.toNat, i, b] = .flWr sel (BitVec.ofNat 16 i) (BitVec.ofNat 8 b) := by
    cases sel <;> rfl
  rw [← hbuild]
  refine assemble_eq_ite ?_ fun ⟨hi, hb⟩ => ?_
  · simp only [Op.fields, operandsFit_sym hsel, operandsFit_num, operandsFit_nil, Field.width, and_true]
  · rw [Op.fields, operandValues_sym hsel, operandValues_num hi, operandValues_num hb]
    rfl

/-! ### The expansions -/

/-- The lines of a value list assembled, where each line's command is known for the values of the list. -/
theorem map_assemble_eachLine {α : Type} (toNat : α → Nat) {line : Nat → Nat → AsmLine} {xs : List α}
    {command : Nat → α → Instr} (h : ∀ j x, j < xs.length → assemble (line j (toNat x)) = some (command j x)) :
    (eachLine line 0 (xs.map toNat)).map assemble = (xs.mapIdx command).map some := by
  refine List.ext_getElem (by simp [map_eachLine]) fun j h1 h2 => ?_
  have hj : j < xs.length := by simpa using h2
  simp only [map_eachLine, List.getElem_mapIdx, List.getElem_map, Nat.zero_add, h j _ hj]

/-- A function that does not look at the index. -/
theorem mapIdx_of_const {α β : Type} (g : α → β) (xs : List α) : (xs.mapIdx fun _ x => g x) = xs.map g :=
  List.ext_getElem (by simp) (by simp)

/-- Settles O58: CRC_INIT, a CRC_BYTE for each byte, which fits, and CRC_FINAL. -/
theorem crc32ExpandsToCommands : Obligations.Crc32ExpandsToCommands := by
  intro bytes
  have hinit : assemble ⟨.crcInit, []⟩ = some .crcInit := rfl
  have hfinal : assemble ⟨.crcFinal, []⟩ = some .crcFinal := rfl
  have hbytes := map_assemble_eachLine BitVec.toNat (xs := bytes) (line := fun _ b => ⟨.crcByte, [.num b]⟩)
    (command := fun _ b => .crcByte b) fun j b _ => by
      rw [assemble_crcByte, if_pos b.isLt, BitVec.ofNat_toNat, BitVec.setWidth_eq]
  rw [mapIdx_of_const] at hbytes
  simp only [Pseudo.expand, crc32Commands, List.cons_append, List.map_cons, List.map_append, List.map_nil, hbytes,
    hinit, hfinal]

/-- PK_SAMPLES from any offset. -/
theorem map_assemble_pkSamplesLines (off n : Nat) (vals : List Nat) :
    (pkSamplesLines off n vals).map assemble
      = vals.mapIdx fun j v => if off + j * n < 2 ^ 32 ∧ v < 2 ^ 16 ∧ n < 2 ^ 5
          then some (.pkPut (BitVec.ofNat 32 (off + j * n)) (BitVec.ofNat 16 v) (BitVec.ofNat 5 n)) else none := by
  simp only [pkSamplesLines, map_eachLine, Nat.zero_add, assemble_pkPut]

/-- PK_SAMPLES of samples that fit gives the chain of O28. -/
theorem map_assemble_pkPutChain {off : Nat} {n : BitVec 5} {vals : List (BitVec 16)}
    (h : off + vals.length * n.toNat < 2 ^ 32) :
    (pkSamplesLines off n.toNat (vals.map BitVec.toNat)).map assemble = (pkPutChain n off vals).map some := by
  refine map_assemble_eachLine BitVec.toNat fun j v hj => ?_
  have hle : j * n.toNat ≤ vals.length * n.toNat := Nat.mul_le_mul_right _ hj.le
  rw [assemble_pkPut, if_pos ⟨by omega, v.isLt, n.isLt⟩, BitVec.ofNat_toNat, BitVec.ofNat_toNat, BitVec.setWidth_eq,
    BitVec.setWidth_eq]

/-- Settles O59, from the lines each expansion is made of. -/
theorem pseudoInstructionsExpand : Obligations.PseudoInstructionsExpand := by
  refine ⟨fun sel i bytes => ?_, fun k => ?_, map_assemble_pkSamplesLines,
    fun r rowBytes n vals => map_assemble_pkSamplesLines _ n vals, fun off n vals => map_assemble_pkPutChain⟩
  · simp only [Pseudo.expand, map_eachLine, Nat.zero_add, assemble_flWr]
  · have hrdt : assemble ⟨.flRdt, []⟩ = some .flRdt := rfl
    simp only [Pseudo.expand, List.map_cons, List.map_map, hrdt, Function.comp_def, assemble_flRdo]

end Sys2Proof.Proofs
end
